-- ==== Sys2Proof/Word.lean ====
section
/-! DEFINITION. The word of the Intcode core (00_scope.md R5, R7): every cell, register, queue entry and
intermediate result is an integer. No rule treats a value as a bit string (R7), so a word is an `Int`, not a bit vector. -/

namespace Sys2Proof

/-- A `WORD` of 00_scope.md R7. Under `WORD_MODEL = Unbounded` every integer is one; under `Signed64` only the integers
that `Machine.wordOk` accepts are (log entry 15). -/
abbrev Word := Int

end Sys2Proof
end

