-- ==== Sys2Proof/Config.lean ====
section
/-! DEFINITION. The implementation parameters of 00_scope.md R5 and their defaults. No behaviour of this hardware is a
free value (93_implementation_defined.md), so no opaque constant stands here. -/

namespace Sys2Proof

/-- `WORD_MODEL` (R5, D1): the values a word ranges over. -/
inductive WordModel where
  | unbounded
  | signed64
deriving DecidableEq, Repr

/-- `EXTRA_DIGITS` (R5, D5): what the decoder does with non-zero digits above the last mode digit. -/
inductive ExtraDigits where
  | fault
  | ignore
deriving DecidableEq, Repr

/-- The five parameters a model of this hardware takes (R5). A capacity or size of `none` is `∞`. -/
structure Params where
  wordModel   : WordModel
  memSize     : Option Nat
  extraDigits : ExtraDigits
  inCap       : Option Nat
  outCap      : Option Nat
deriving DecidableEq, Repr

/-- The defaults of R5: the values this hardware takes. -/
def Params.default : Params :=
  { wordModel := .unbounded, memSize := none, extraDigits := .fault, inCap := none, outCap := none }

end Sys2Proof
end

