-- ==== Sys2Proof/Syntax.lean ====
section
/-! DEFINITION. Decoded instructions: what `Decode` of 30_encoding.md R93 returns, the operation with one mode per
parameter. The raw parameters are not part of it: they are the cells after the instruction word, read by the step's
resolve phase one parameter at a time (R84, R171), so that the fault priority of R214 point 6 can be followed. -/

namespace Sys2Proof

/-- The parameter modes, digits 0, 1 and 2 (R85, R13). -/
inductive Mode where
  | position
  | immediate
  | relative
deriving DecidableEq, Repr

/-- The two modes of a write operand that R88 leaves. -/
inductive DestMode where
  | position
  | relative
deriving DecidableEq, Repr

/-- The ten instructions of R83 and R101, one constructor per row of opcode_table.json; `m1`, `m2`, `m3` are the modes of
parameters 1, 2 and 3. -/
inductive Instr where
  | add (m1 m2 m3 : Mode)
  | mul (m1 m2 m3 : Mode)
  | input (m1 : Mode)
  | output (m1 : Mode)
  | jumpIfTrue (m1 m2 : Mode)
  | jumpIfFalse (m1 m2 : Mode)
  | lessThan (m1 m2 m3 : Mode)
  | equals (m1 m2 m3 : Mode)
  | adjustRelativeBase (m1 : Mode)
  | halt
deriving DecidableEq, Repr

end Sys2Proof
end

