-- ==== Sys2Proof/WellFormed.lean ====
section
/-! DEFINITION. Which decoded instructions have an encoding: the write operand, always the last parameter (30_encoding.md
R87), is in Position or Relative mode (R88). -/

namespace Sys2Proof

/-- The mode of the write operand, for the instructions that have one (R87). -/
def Instr.writeMode : Instr → Option Mode
  | .add _ _ m3 => some m3
  | .mul _ _ m3 => some m3
  | .input m1 => some m1
  | .output _ => none
  | .jumpIfTrue _ _ => none
  | .jumpIfFalse _ _ => none
  | .lessThan _ _ m3 => some m3
  | .equals _ _ m3 => some m3
  | .adjustRelativeBase _ => none
  | .halt => none

/-- R88: no write operand in Immediate mode. -/
def Instr.wellFormed (i : Instr) : Bool :=
  decide (i.writeMode ≠ some .immediate)

end Sys2Proof
end

