-- ==== Sys2Proof/Decode.lean ====
section
/-! DEFINITION. The decode unit (30_encoding.md R80 to R95): a total function from an instruction word to a decoded
instruction or a named decode fault; and the encoder of R92 and R100, from the same layout. -/

namespace Sys2Proof

/-- Why a word does not decode: the decode faults of R94 with what R211 records of them. `invalidMode i d` is digit `d`
on parameter `i`; `invalidWriteTarget j` is Immediate mode on the write parameter `j`. -/
inductive DecodeFault where
  | unknownOpcode
  | invalidMode (i d : Nat)
  | extraDigits
  | invalidWriteTarget (j : Nat)
deriving DecidableEq, Repr

/-- `digit(w, k)` of 00_scope.md R7: the decimal digit of weight `10^k`. -/
def digit (w k : Nat) : Nat :=
  w / 10 ^ k % 10

/-- The mode digit of R85, read as a mode. -/
def Mode.ofDigit : Nat → Option Mode
  | 0 => some .position
  | 1 => some .immediate
  | 2 => some .relative
  | _ => none

/-- The mode digit that R100 assembles. -/
def Mode.toDigit : Mode → Nat
  | .position => 0
  | .immediate => 1
  | .relative => 2

/-- The mode of parameter `i` of word `w`, or `InvalidMode` (R85). -/
def decodeMode (w i : Nat) : Except DecodeFault Mode :=
  match Mode.ofDigit (digit w (i + 1)) with
  | some m => .ok m
  | none => .error (.invalidMode i (digit w (i + 1)))

/-- R86: non-zero digits above the last mode digit of an instruction of arity `n`. -/
def checkExtra (x : ExtraDigits) (w n : Nat) : Except DecodeFault Unit :=
  match x with
  | .ignore => .ok ()
  | .fault => if w / 10 ^ (n + 2) = 0 then .ok () else .error .extraDigits

/-- R88: the write parameter is in Position or Relative mode. -/
def Mode.toDest : Mode → Option DestMode
  | .position => some .position
  | .immediate => none
  | .relative => some .relative

/-- The write-target check of R88 for the write parameter `j`. -/
def checkWriteTarget (j : Nat) (m : Mode) : Except DecodeFault Unit :=
  match m.toDest with
  | some _ => .ok ()
  | none => .error (.invalidWriteTarget j)

/-- Format `F0` of R92. -/
def decodeF0 (x : ExtraDigits) (w : Nat) (i : Instr) : Except DecodeFault Instr := do
  checkExtra x w 0
  .ok i

/-- Format `F1R` of R92. -/
def decodeF1R (x : ExtraDigits) (w : Nat) (mk : Mode → Instr) : Except DecodeFault Instr := do
  let m1 ← decodeMode w 1
  checkExtra x w 1
  .ok (mk m1)

/-- Format `F1W` of R92. -/
def decodeF1W (x : ExtraDigits) (w : Nat) (mk : Mode → Instr) : Except DecodeFault Instr := do
  let m1 ← decodeMode w 1
  checkExtra x w 1
  checkWriteTarget 1 m1
  .ok (mk m1)

/-- Format `F2RR` of R92. -/
def decodeF2RR (x : ExtraDigits) (w : Nat) (mk : Mode → Mode → Instr) : Except DecodeFault Instr := do
  let m1 ← decodeMode w 1
  let m2 ← decodeMode w 2
  checkExtra x w 2
  .ok (mk m1 m2)

/-- Format `F3RRW` of R92. -/
def decodeF3RRW (x : ExtraDigits) (w : Nat) (mk : Mode → Mode → Mode → Instr) : Except DecodeFault Instr := do
  let m1 ← decodeMode w 1
  let m2 ← decodeMode w 2
  let m3 ← decodeMode w 3
  checkExtra x w 3
  checkWriteTarget 3 m3
  .ok (mk m1 m2 m3)

/-- `Decode` of R93 on a non-negative word: the opcode is the two low decimal digits (R82) and selects the format (R101). -/
def decodeNat (x : ExtraDigits) (w : Nat) : Except DecodeFault Instr :=
  match w % 100 with
  | 1 => decodeF3RRW x w .add
  | 2 => decodeF3RRW x w .mul
  | 3 => decodeF1W x w .input
  | 4 => decodeF1R x w .output
  | 5 => decodeF2RR x w .jumpIfTrue
  | 6 => decodeF2RR x w .jumpIfFalse
  | 7 => decodeF3RRW x w .lessThan
  | 8 => decodeF3RRW x w .equals
  | 9 => decodeF1R x w .adjustRelativeBase
  | 99 => decodeF0 x w .halt
  | _ => .error .unknownOpcode

/-- `Decode` of R93: a negative word is an unknown opcode (R81). -/
def decode (x : ExtraDigits) : Word → Except DecodeFault Instr
  | .ofNat w => decodeNat x w
  | .negSucc _ => .error .unknownOpcode

/-- The arity of an opcode, for exactly the valid opcodes (R83). -/
def arityOf (op : Nat) : Option Nat :=
  if op = 1 ∨ op = 2 ∨ op = 7 ∨ op = 8 then some 3
  else if op = 5 ∨ op = 6 then some 2
  else if op = 3 ∨ op = 4 ∨ op = 9 then some 1
  else if op = 99 then some 0
  else none

/-- The index of the write parameter of an opcode, where it has one (R87). -/
def writeParamOf (op : Nat) : Option Nat :=
  if op = 1 ∨ op = 2 ∨ op = 7 ∨ op = 8 then some 3
  else if op = 3 then some 1
  else none

/-- The two-digit opcode of an instruction (R83). -/
def Instr.opcode : Instr → Nat
  | .add _ _ _ => 1
  | .mul _ _ _ => 2
  | .input _ => 3
  | .output _ => 4
  | .jumpIfTrue _ _ => 5
  | .jumpIfFalse _ _ => 6
  | .lessThan _ _ _ => 7
  | .equals _ _ _ => 8
  | .adjustRelativeBase _ => 9
  | .halt => 99

/-- The modes of an instruction's parameters, in order. -/
def Instr.modes : Instr → List Mode
  | .add m1 m2 m3 => [m1, m2, m3]
  | .mul m1 m2 m3 => [m1, m2, m3]
  | .input m1 => [m1]
  | .output m1 => [m1]
  | .jumpIfTrue m1 m2 => [m1, m2]
  | .jumpIfFalse m1 m2 => [m1, m2]
  | .lessThan m1 m2 m3 => [m1, m2, m3]
  | .equals m1 m2 m3 => [m1, m2, m3]
  | .adjustRelativeBase m1 => [m1]
  | .halt => []

/-- The arity of an instruction (R83). -/
def Instr.arity (i : Instr) : Nat :=
  i.modes.length

/-- The number of cells an instruction occupies (R84). -/
def Instr.length (i : Instr) : Nat :=
  1 + i.arity

/-- The mode digits of a word from parameter 1 on: `A + 10·B + 100·C` (R92). -/
def modeDigits : List Mode → Nat
  | [] => 0
  | m :: ms => m.toDigit + 10 * modeDigits ms

/-- The instruction word `op + 100·A + 1000·B + 10000·C` of R92 and R100. -/
def encode (i : Instr) : Word :=
  Int.ofNat (i.opcode + 100 * modeDigits i.modes)

/-- The instruction this decoder reads, under the default parameters, from an instruction whose first cell holds `w` and
whose parameter cells hold 0. An instruction word is one decimal cell of no fixed width (R80, R85), so all of `w` is that
cell and `_nbits` plays no part (log entry 6). -/
def decodeTableWord (_nbits w : Nat) : Option Instr :=
  match decode Params.default.extraDigits (Int.ofNat w) with
  | .ok i => some i
  | .error _ => none

end Sys2Proof
end

