-- ==== Sys2Proof/Machine/State.lean ====
section
/-! DEFINITION. The state of one machine (10_state.md R20), the fault record (60_exceptions.md R211, R213), and the state
after reset (R33). -/

namespace Sys2Proof.Machine

/-- The run state of R29. -/
inductive RunState where
  | ready
  | running
  | ioWait
  | halted
  | faulted
deriving DecidableEq, Repr

/-- The fault kinds of R211. -/
inductive FaultKind where
  | unknownOpcode
  | invalidMode
  | extraDigits
  | invalidWriteTarget
  | negativeAddress
  | addressLimit
  | overflow
  | queueOverflow
deriving DecidableEq, Repr

/-- The fault record of R213. Its `code` is a function of `kind` and its `opcode` a function of `word`; both are views,
`FaultKind.code` and `FaultRecord.opcode` of Machine/Ops.lean (log entry 7). -/
structure FaultRecord where
  kind  : FaultKind
  addr  : Word
  word  : Option Word
  param : Option Nat
  value : Word
deriving DecidableEq, Repr

/-- The cells that do not hold 0, by rising address; an unlisted cell reads 0 (R51). A cell holds an integer, not bytes
(R56; log entry 2). -/
abbrev Memory := List (Nat × Word)

/-- The state tuple of R20, and the parameters of R5 that are fixed for one machine (`params`, the model's own field, log
entry 1). -/
structure State where
  params : Params
  mem    : Memory
  ptr    : Word
  rb     : Word
  inQ    : List Word
  outQ   : List Word
  run    : RunState
  fault  : Option FaultRecord
  image  : List Word
deriving DecidableEq, Repr

/-- Reasons to stop outside the spec's own fault mechanism: there are none. Every fault of R211 is entered as R215 says, a
next state with `run = Faulted` and the record in `fault`, so `Host.Outcome.fault` is never answered (log entry 5). -/
inductive Fault where
deriving DecidableEq, Repr

/-- Reasons to refuse an instruction. -/
inductive Refusal where
  /-- Raised by `exec`'s arm of an instruction that has no meaning yet; no arm of this model raises it. Safe. -/
  | notModelled (mnemonic : String)
deriving DecidableEq, Repr

/-- R33, for the default parameters and the empty program (R241; log entries 1 and 3): every cell 0, `ptr` and `rb` 0,
both queues empty, `Ready`, no fault. -/
def State.reset : State :=
  { params := Params.default, mem := [], ptr := 0, rb := 0, inQ := [], outQ := [], run := .ready, fault := none, image := [] }

end Sys2Proof.Machine
end

