-- ==== Sys2Proof/Machine/Ops.lean ====
section
/-! DEFINITION. The named operations over memory, registers, queues and run state, the checks that can raise, and taking
a fault (60_exceptions.md R213, R215). -/

namespace Sys2Proof.Machine

/-- The numeric codes of R29 (D27). -/
def RunState.code : RunState → Nat
  | .ready => 0
  | .running => 1
  | .ioWait => 2
  | .halted => 3
  | .faulted => 4

/-- The numeric codes of R211 (D10). -/
def FaultKind.code : FaultKind → Nat
  | .unknownOpcode => 1
  | .invalidMode => 2
  | .extraDigits => 3
  | .invalidWriteTarget => 4
  | .negativeAddress => 5
  | .addressLimit => 6
  | .overflow => 7
  | .queueOverflow => 8

/-- The record's code (R213). -/
def FaultRecord.code (r : FaultRecord) : Nat :=
  r.kind.code

/-- The opcode digits of a word: `word mod 100` for a non-negative word, none otherwise (R213). -/
def opcodeOf (w : Word) : Option Nat :=
  if w < 0 then none else some (w.toNat % 100)

/-- The record's opcode (R213). -/
def FaultRecord.opcode (r : FaultRecord) : Option Nat :=
  r.word.bind opcodeOf

/-- `mem(a)` (20_memory.md R51). -/
def Memory.read : Memory → Nat → Word
  | [], _ => 0
  | (b, w) :: m, a => if a = b then w else Memory.read m a

/-- `mem(a) <- v` (R52), in the canonical form: rising addresses, no cell that holds 0. -/
def Memory.write : Memory → Nat → Word → Memory
  | [], a, v => if v = 0 then [] else [(a, v)]
  | (b, w) :: m, a, v =>
    if a < b then (if v = 0 then (b, w) :: m else (a, v) :: (b, w) :: m)
    else if a = b then (if v = 0 then m else (a, v) :: m)
    else (b, w) :: Memory.write m a v

/-- The canonical form: addresses strictly rising, and no entry equal to what an unlisted cell reads as. -/
abbrev Memory.wf (m : Memory) : Prop :=
  m.Pairwise (fun x y => x.1 < y.1) ∧ ∀ c ∈ m, c.2 ≠ 0

/-- A sequence of values placed in fresh memory from address `a` on (70_reset_and_hazards.md R240). -/
def Memory.placed (a : Nat) : List Word → Memory
  | [] => []
  | v :: vs => if v = 0 then Memory.placed (a + 1) vs else (a, v) :: Memory.placed (a + 1) vs

/-- The memory right after loading program `P` (R33, R240). -/
def Memory.ofProgram (P : List Word) : Memory :=
  Memory.placed 0 P

/-- Whether a value is a `WORD` under the word model (00_scope.md R5, R9). -/
def wordOk (p : Params) (v : Word) : Bool :=
  match p.wordModel with
  | .unbounded => true
  | .signed64 => decide (-9223372036854775808 ≤ v) && decide (v ≤ 9223372036854775807)

/-- Whether a value is an address, one of 0 .. `MEM_SIZE` - 1 (R5, R50). -/
def addrOk (p : Params) (a : Word) : Bool :=
  decide (0 ≤ a) &&
    match p.memSize with
    | none => true
    | some n => decide (a < n)

/-- Whether `n` entries fit a capacity (R5). -/
def fits (cap : Option Nat) (n : Nat) : Bool :=
  match cap with
  | none => true
  | some c => decide (n ≤ c)

/-- What `raise Fault(kind, info)` carries (R11, R213): the kind, the parameter it is about, the value recorded. -/
structure Raise where
  kind  : FaultKind
  param : Option Nat
  value : Word
deriving DecidableEq, Repr

/-- A phase of a step: a result, or the fault it raises. -/
abbrev Checked (α : Type) := Except Raise α

/-- `CheckWord(v)` of R9, for parameter `i` (none outside operand resolution). -/
def checkWord (p : Params) (i : Option Nat) (v : Word) : Checked Word :=
  if wordOk p v then .ok v else .error ⟨.overflow, i, v⟩

/-- `CheckAddr(a)` of R9, for parameter `i` (none for the fetch): `NegativeAddress` first, then `AddressLimit`. -/
def checkAddr (p : Params) (i : Option Nat) (a : Word) : Checked Nat :=
  if a < 0 then .error ⟨.negativeAddress, i, a⟩
  else match p.memSize with
    | none => .ok a.toNat
    | some n => if (n : Int) ≤ a then .error ⟨.addressLimit, i, a⟩ else .ok a.toNat

/-- `MemRead(a, 1)` of R9 and R51. -/
def memRead (s : State) (i : Option Nat) (a : Word) : Checked Word := do
  let n ← checkAddr s.params i a
  .ok (s.mem.read n)

/-- The effect of `MemWrite(d, 1, v)` at an address that `CheckAddr` has passed (R52, R90). -/
def State.store (d : Nat) (v : Word) (s : State) : State :=
  { s with mem := s.mem.write d v }

/-- `rb <- v` (R27). -/
def State.setRb (v : Word) (s : State) : State :=
  { s with rb := v }

/-- `OutQ <- OutQ ++ [v]` (41_io.md R131). -/
def State.emit (v : Word) (s : State) : State :=
  { s with outQ := s.outQ ++ [v] }

/-- `InQ <- q` (R130, with `q` the tail). -/
def State.setInQ (q : List Word) (s : State) : State :=
  { s with inQ := q }

/-- The end of every completed instruction but halt: `ptr <- np` (R25) and `run <- Running` (R171). -/
def State.advance (np : Word) (s : State) : State :=
  { s with ptr := np, run := .running }

/-- `run <- Halted` (44_base_and_halt.md R161). -/
def State.halt (s : State) : State :=
  { s with run := .halted }

/-- `suspend IOWait`: no effect but on the run state (R11, R175). -/
def State.suspend (s : State) : State :=
  { s with run := .ioWait }

/-- The instruction word at `ptr`, none when its fetch itself faults (R213; log entry 10). -/
def State.currentWord (s : State) : Option Word :=
  if addrOk s.params s.ptr then some (s.mem.read s.ptr.toNat) else none

/-- TAKING A FAULT (R213, R215): `run <- Faulted`, `fault <- record`, and nothing else. There is no return from a fault but the
host's reset (R216), `State.hostReset` of Machine/HostOps.lean. -/
def State.takeFault (r : Raise) (s : State) : State :=
  { s with
    run := .faulted
    fault := some { kind := r.kind, addr := s.ptr, word := s.currentWord, param := r.param, value := r.value } }

/-- The end of a step that started in `s`: the committed state, or the fault taken in `s`, in which nothing else changed
(R171, R172). -/
def finish (s : State) (c : Checked State) : Host.Outcome State Fault Refusal :=
  match c with
  | .ok t => .next t
  | .error r => .next (s.takeFault r)

/-- The raise of a decode fault of word `w`, with the value R211 records. -/
def decodeRaise (w : Word) : DecodeFault → Raise
  | .unknownOpcode => ⟨.unknownOpcode, none, w⟩
  | .invalidMode i d => ⟨.invalidMode, some i, (d : Int)⟩
  | .extraDigits => ⟨.extraDigits, none, w⟩
  | .invalidWriteTarget j => ⟨.invalidWriteTarget, some j, (j : Int)⟩

end Sys2Proof.Machine
end

