-- ==== Sys2Proof/Machine/Operands.lean ====
section
/-! DEFINITION. The parameter-mode resolver: raw parameters, read operands and write addresses (30_encoding.md R84, R87 to
R91), and the resolve phase of each format (R92; 50_execution_and_host.md R171). -/

namespace Sys2Proof.Machine

/-- `raw_i <- MemRead(CheckWord(ptr + i), 1)` (R84, R171). -/
def rawParam (i : Nat) (s : State) : Checked Word := do
  let a ← checkWord s.params (some i) (s.ptr + (i : Int))
  memRead s (some i) a

/-- `ReadOperand(m, raw)` of R89. -/
def readOperand (i : Nat) (m : Mode) (raw : Word) (s : State) : Checked Word :=
  match m with
  | .position => memRead s (some i) raw
  | .immediate => .ok raw
  | .relative => do
    let a ← checkWord s.params (some i) (raw + s.rb)
    memRead s (some i) a

/-- `WriteAddress(m, raw)` of R90. -/
def writeAddress (j : Nat) (m : DestMode) (raw : Word) (s : State) : Checked Nat :=
  match m with
  | .position => checkAddr s.params (some j) raw
  | .relative => do
    let a ← checkWord s.params (some j) (raw + s.rb)
    checkAddr s.params (some j) a

/-- The mode of the write parameter `j`. Decoding has refused Immediate mode (R88), so the fault is raised here only for an
instruction that no word decodes to (log entry 9). -/
def destMode (j : Nat) (m : Mode) : Checked DestMode :=
  match m.toDest with
  | some d => .ok d
  | none => .error ⟨.invalidWriteTarget, some j, (j : Int)⟩

/-- Read parameter `i`: its raw value, then its operand (R171). -/
def readParam (i : Nat) (m : Mode) (s : State) : Checked Word := do
  let raw ← rawParam i s
  readOperand i m raw s

/-- Write parameter `j`: its raw value, then its destination address (R171). -/
def writeParam (j : Nat) (m : DestMode) (s : State) : Checked Nat := do
  let raw ← rawParam j s
  writeAddress j m raw s

/-- The operands of a format `F2RR` instruction. -/
structure Operands2 where
  v1 : Word
  v2 : Word
deriving DecidableEq, Repr

/-- The operands of a format `F3RRW` instruction. -/
structure Operands3 where
  v1 : Word
  v2 : Word
  d  : Nat
deriving DecidableEq, Repr

/-- The resolve phase of format `F1W`. -/
def resolveF1W (m1 : Mode) (s : State) : Checked Nat := do
  let dm ← destMode 1 m1
  writeParam 1 dm s

/-- The resolve phase of format `F2RR`, parameters in increasing order. -/
def resolveF2RR (m1 m2 : Mode) (s : State) : Checked Operands2 := do
  let v1 ← readParam 1 m1 s
  let v2 ← readParam 2 m2 s
  .ok ⟨v1, v2⟩

/-- The resolve phase of format `F3RRW`, parameters in increasing order. -/
def resolveF3RRW (m1 m2 m3 : Mode) (s : State) : Checked Operands3 := do
  let dm ← destMode 3 m3
  let v1 ← readParam 1 m1 s
  let v2 ← readParam 2 m2 s
  let d ← writeParam 3 dm s
  .ok ⟨v1, v2, d⟩

/-- `np <- CheckWord(ptr + length)` (R25, R84). -/
def nextPtr (length : Nat) (s : State) : Checked Word :=
  checkWord s.params none (s.ptr + (length : Int))

/-- The execute and commit phases shared by the F3RRW instructions (R120, R121, R150, R151): the result from the two values,
then the next `ptr`, then the write, then `ptr`. -/
def writeResult (m1 m2 m3 : Mode) (result : Word → Word → Checked Word) (s : State) : Host.Outcome State Fault Refusal :=
  finish s do
    let o ← resolveF3RRW m1 m2 m3 s
    let r ← result o.v1 o.v2
    let np ← nextPtr 4 s
    .ok ((s.store o.d r).advance np)

/-- The execute and commit phases shared by the conditional jumps (R140, R141): the target unchecked when the condition
takes the jump, else the next instruction. -/
def jumpWhen (m1 m2 : Mode) (taken : Word → Bool) (s : State) : Host.Outcome State Fault Refusal :=
  finish s do
    let o ← resolveF2RR m1 m2 s
    if taken o.v1 then .ok (s.advance o.v2)
    else do
      let np ← nextPtr 3 s
      .ok (s.advance np)

end Sys2Proof.Machine
end

