-- ==== Sys2Proof/Machine/Arithmetic.lean ====
section
/-! DEFINITION. add and mul (40_arithmetic.md R120 to R122): exact integer results, checked under `Signed64`. -/

namespace Sys2Proof.Machine

/-- R120, opcode 1: `mem[d] <- v1 + v2`. -/
def execAdd (m1 m2 m3 : Mode) (s : State) : Host.Outcome State Fault Refusal :=
  writeResult m1 m2 m3 (fun v1 v2 => checkWord s.params none (v1 + v2)) s

/-- R121, opcode 2: `mem[d] <- v1 * v2`. -/
def execMul (m1 m2 m3 : Mode) (s : State) : Host.Outcome State Fault Refusal :=
  writeResult m1 m2 m3 (fun v1 v2 => checkWord s.params none (v1 * v2)) s

end Sys2Proof.Machine
end

