-- ==== Sys2Proof/Machine/BaseAndHalt.lean ====
section
/-! DEFINITION. adjust-relative-base and halt (44_base_and_halt.md R160, R161). -/

namespace Sys2Proof.Machine

/-- R160, opcode 9: `rb <- rb + v1`, the operand read with the old base. -/
def execAdjustRelativeBase (m1 : Mode) (s : State) : Host.Outcome State Fault Refusal :=
  finish s do
    let v1 ← readParam 1 m1 s
    let nrb ← checkWord s.params none (s.rb + v1)
    let np ← nextPtr 2 s
    .ok ((s.setRb nrb).advance np)

/-- R161, opcode 99: `run <- Halted`, everything else unchanged, `ptr` included. -/
def execHalt (s : State) : Host.Outcome State Fault Refusal :=
  .next s.halt

end Sys2Proof.Machine
end

