-- ==== Sys2Proof/Machine/Flags.lean ====
section
/-! DEFINITION. There are no flags and no condition codes (10_state.md R23): a comparison gives the value 1 or 0, and a jump
tests a read operand for zero. Those two computations stand here. -/

namespace Sys2Proof.Machine

/-- The result of a comparison, exactly 1 or 0 (43_compare.md R150, R151). -/
def boolWord (b : Bool) : Word :=
  if b then 1 else 0

/-- The condition of jump-if-true: any non-zero value, negative included (42_jumps.md R140). -/
def isNonzero (v : Word) : Bool :=
  decide (v ≠ 0)

/-- The condition of jump-if-false: only the value 0 (R141). -/
def isZero (v : Word) : Bool :=
  decide (v = 0)

end Sys2Proof.Machine
end

