-- ==== Sys2Proof/Machine/Compare.lean ====
section
/-! DEFINITION. The comparisons (43_compare.md R150, R151): 1 or 0 to a cell. -/

namespace Sys2Proof.Machine

/-- R150, opcode 7: signed, exact `v1 < v2`. -/
def execLessThan (m1 m2 m3 : Mode) (s : State) : Host.Outcome State Fault Refusal :=
  writeResult m1 m2 m3 (fun v1 v2 => .ok (boolWord (decide (v1 < v2)))) s

/-- R151, opcode 8: `v1 = v2`. -/
def execEquals (m1 m2 m3 : Mode) (s : State) : Host.Outcome State Fault Refusal :=
  writeResult m1 m2 m3 (fun v1 v2 => .ok (boolWord (decide (v1 = v2)))) s

end Sys2Proof.Machine
end

