-- ==== Sys2Proof/Machine/Io.lean ====
section
/-! DEFINITION. input and output (41_io.md R130 to R132). -/

namespace Sys2Proof.Machine

/-- R130, opcode 3: the destination is resolved first (D7); then an empty `InQ` suspends, and otherwise the head goes to the
destination. -/
def execInput (m1 : Mode) (s : State) : Host.Outcome State Fault Refusal :=
  match resolveF1W m1 s with
  | .error r => .next (s.takeFault r)
  | .ok d =>
    match s.inQ with
    | [] => .next s.suspend
    | v :: q => finish s do
      let np ← nextPtr 2 s
      .ok (((s.setInQ q).store d v).advance np)

/-- R131: an Output on a full `OutQ`, for a finite `OUT_CAP`, raises `QueueOverflow` with the value not output. -/
def checkOutput (v : Word) (s : State) : Checked Unit :=
  if s.params.outCap = some s.outQ.length then .error ⟨.queueOverflow, none, v⟩ else .ok ()

/-- R131, opcode 4: `OutQ <- OutQ ++ [v1]`. -/
def execOutput (m1 : Mode) (s : State) : Host.Outcome State Fault Refusal :=
  finish s do
    let v1 ← readParam 1 m1 s
    checkOutput v1 s
    let np ← nextPtr 2 s
    .ok ((s.emit v1).advance np)

end Sys2Proof.Machine
end

