-- ==== Sys2Proof/Machine/Jumps.lean ====
section
/-! DEFINITION. The conditional jumps (42_jumps.md R140 to R142). -/

namespace Sys2Proof.Machine

/-- R140, opcode 5: to `v2` when `v1 ≠ 0`. -/
def execJumpIfTrue (m1 m2 : Mode) (s : State) : Host.Outcome State Fault Refusal :=
  jumpWhen m1 m2 isNonzero s

/-- R141, opcode 6: to `v2` when `v1 = 0`. -/
def execJumpIfFalse (m1 m2 : Mode) (s : State) : Host.Outcome State Fault Refusal :=
  jumpWhen m1 m2 isZero s

end Sys2Proof.Machine
end

