-- ==== Sys2Proof/Machine/Dispatch.lean ====
section
/-! DEFINITION. The operation dispatcher: one arm per instruction (50_execution_and_host.md R170, R171). -/

namespace Sys2Proof.Machine

/-- The resolve, execute and commit phases of a decoded instruction, whose cells stand at `ptr` (R171). -/
def exec (i : Instr) (s : State) : Host.Outcome State Fault Refusal :=
  match i with
  | .add m1 m2 m3 => Sys2Proof.Machine.execAdd m1 m2 m3 s
  | .mul m1 m2 m3 => Sys2Proof.Machine.execMul m1 m2 m3 s
  | .input m1 => Sys2Proof.Machine.execInput m1 s
  | .output m1 => Sys2Proof.Machine.execOutput m1 s
  | .jumpIfTrue m1 m2 => Sys2Proof.Machine.execJumpIfTrue m1 m2 s
  | .jumpIfFalse m1 m2 => Sys2Proof.Machine.execJumpIfFalse m1 m2 s
  | .lessThan m1 m2 m3 => Sys2Proof.Machine.execLessThan m1 m2 m3 s
  | .equals m1 m2 m3 => Sys2Proof.Machine.execEquals m1 m2 m3 s
  | .adjustRelativeBase m1 => Sys2Proof.Machine.execAdjustRelativeBase m1 s
  | .halt => Sys2Proof.Machine.execHalt s

end Sys2Proof.Machine
end

