-- ==== Sys2Proof/Machine/Fetch.lean ====
section
/-! DEFINITION. The instruction fetch unit and its meeting with the decoder (30_encoding.md R80; 50_execution_and_host.md R171),
and placing one instruction where the next step fetches. -/

namespace Sys2Proof.Machine

/-- `w <- MemRead(ptr, 1)`: the current contents of memory, like any data read (R80, R65). -/
def fetchWord (s : State) : Checked Word :=
  memRead s none s.ptr

/-- Decode a fetched word under the machine's `EXTRA_DIGITS` (R86, R93). -/
def decodeFetched (s : State) (w : Word) : Checked Instr :=
  match decode s.params.extraDigits w with
  | .ok i => .ok i
  | .error f => .error (decodeRaise w f)

/-- The fetch and decode phases of R171. -/
def fetchDecode (s : State) : Checked Instr := do
  let w ← fetchWord s
  decodeFetched s w

/-- Values placed in consecutive cells from `a` on, in those of the cells that exist. -/
def placeCells (p : Params) (a : Nat) : List Word → Memory → Memory
  | [], m => m
  | v :: vs, m => placeCells p (a + 1) vs (if addrOk p (a : Int) then m.write a v else m)

/-- A state whose next step fetches: not terminal (a halted or faulted machine becomes `Ready`), and with `ptr` where the four
cells of a longest instruction exist, else 0 (log entry 4). -/
def State.readyToFetch (s : State) : State :=
  let s₁ :=
    match s.run with
    | .halted => { s with run := .ready, fault := none }
    | .faulted => { s with run := .ready, fault := none }
    | .ready => s
    | .running => s
    | .ioWait => s
  if addrOk s₁.params s₁.ptr && addrOk s₁.params (s₁.ptr + 3) then s₁ else { s₁ with ptr := 0 }

/-- The instruction word `w` followed by parameter cells of 0, stored at `ptr`. -/
def State.placeInstr (w : Nat) (s : State) : State :=
  { s with mem := placeCells s.params s.ptr.toNat [(w : Int), 0, 0, 0] s.mem }

end Sys2Proof.Machine
end

