-- ==== Sys2Proof/Machine/Step.lean ====
section
/-! DEFINITION. The step function of 50_execution_and_host.md R171. -/

namespace Sys2Proof.Machine

/-- `Step(S)` of R171: a halted or faulted machine does not change; otherwise fetch and decode, then resolve, execute and
commit. A fault of any phase is taken as R215 says. -/
def step (s : State) : Host.Outcome State Fault Refusal :=
  match s.run with
  | .halted => .next s
  | .faulted => .next s
  | .ready | .running | .ioWait =>
    match fetchDecode s with
    | .error r => .next (s.takeFault r)
    | .ok i => exec i s

/-- `s` with one instruction stored where the next step fetches: its word `w`, then parameter cells of 0 (log entries 4 and
6). It stands for the host's `load`, by which a program comes to run. -/
def State.withFetchWord (s : State) (_nbits w : Nat) : State :=
  s.readyToFetch.placeInstr w

end Sys2Proof.Machine
end

