-- ==== Sys2Proof/Machine/ProgramText.lean ====
section
/-! DEFINITION. The program text format of the loader (30_encoding.md R96, R97): one line of comma-separated base-10 signed
integers. A text is a list of characters. The tokens at the end are the format written out, for the statements. -/

namespace Sys2Proof.Machine

/-- The whitespace of R97: spaces, tabs, carriage returns, line feeds. -/
def isBlank (c : Char) : Bool :=
  c = ' ' || c = '\t' || c = '\r' || c = '\n'

/-- A text without its leading blanks. -/
def trimStart : List Char → List Char
  | [] => []
  | c :: cs => if isBlank c then trimStart cs else c :: cs

/-- A text without its leading and trailing blanks (R97). -/
def trim (cs : List Char) : List Char :=
  (trimStart (trimStart cs).reverse).reverse

/-- The pieces of a text between separators. -/
def splitAtChar (sep : Char) : List Char → List (List Char)
  | [] => [[]]
  | c :: cs =>
    if c = sep then [] :: splitAtChar sep cs
    else match splitAtChar sep cs with
      | [] => [[c]]
      | t :: ts => (c :: t) :: ts

/-- A decimal digit's value. -/
def digitValue (c : Char) : Option Nat :=
  if 48 ≤ c.toNat ∧ c.toNat ≤ 57 then some (c.toNat - 48) else none

/-- `[0-9]*`, read after a value `acc`: leading zeros are decimal (R97). -/
def parseDigits (acc : Nat) : List Char → Option Nat
  | [] => some acc
  | c :: cs =>
    match digitValue c with
    | some d => parseDigits (acc * 10 + d) cs
    | none => none

/-- `[0-9]+`. -/
def parseNat : List Char → Option Nat
  | [] => none
  | c :: cs => parseDigits 0 (c :: cs)

/-- `[+-]?[0-9]+` (R97). -/
def parseInteger : List Char → Option Int
  | '+' :: cs => (parseNat cs).map fun n => (n : Int)
  | '-' :: cs => (parseNat cs).map fun n => -(n : Int)
  | cs => (parseNat cs).map fun n => (n : Int)

/-- One token: trimmed, an integer, and a value of the word model (R97). -/
def parseToken (p : Params) (t : List Char) : Option Word :=
  match parseInteger (trim t) with
  | some v => if wordOk p v then some v else none
  | none => none

/-- All tokens, or a parse error if one fails. -/
def parseTokens (p : Params) : List (List Char) → Option (List Word)
  | [] => some []
  | t :: ts =>
    match parseToken p t, parseTokens p ts with
    | some v, some vs => some (v :: vs)
    | _, _ => none

/-- A program text (R96, R97): none is a parse error, which creates no machine. -/
def parseProgram (p : Params) (text : List Char) : Option (List Word) :=
  parseTokens p (splitAtChar ',' (trim text))

/-- A token of R97 written out: blanks, an optional sign (`true` for `-`), decimal digits, blanks. -/
structure TokenText where
  left   : List Char
  sign   : Option Bool
  digits : List (Fin 10)
  right  : List Char
deriving DecidableEq, Repr

/-- A token's blanks are blanks, and it has a digit. -/
def TokenText.ok (t : TokenText) : Prop :=
  (∀ c ∈ t.left, isBlank c = true) ∧ (∀ c ∈ t.right, isBlank c = true) ∧ t.digits ≠ []

/-- A token's characters. -/
def TokenText.chars (t : TokenText) : List Char :=
  t.left ++ (match t.sign with | none => [] | some false => ['+'] | some true => ['-']) ++
    t.digits.map (fun d => Char.ofNat (48 + d.val)) ++ t.right

/-- A token's value, decimal whatever its leading zeros. -/
def TokenText.value (t : TokenText) : Int :=
  let n : Int := t.digits.foldl (fun (a : Int) d => 10 * a + (d.val : Int)) 0
  if t.sign = some true then -n else n

end Sys2Proof.Machine
end

