-- ==== Sys2Proof/Machine/Assembly.lean ====
section
/-! DEFINITION. The spec's assembly language (30_encoding.md R98 to R100): operands, instructions, pseudo-instructions, data,
labels, and its text form; and the reading of an assembled instruction back. -/

namespace Sys2Proof.Machine

/-- `N` of R98: a decimal integer or a label. -/
inductive AsmNum where
  | lit (v : Word)
  | label (name : List Char)
deriving DecidableEq, Repr

/-- An operand of R98: `N`, `#N`, and `rb+N`, `rb-N` (`negated`) or `rb` (`rb+0`). -/
inductive AsmOperand where
  | position (n : AsmNum)
  | immediate (n : AsmNum)
  | relative (negated : Bool) (n : AsmNum)
deriving DecidableEq, Repr

/-- The mnemonics of R98, the source's operation names. -/
inductive Mnemonic where
  | add
  | mul
  | input
  | output
  | jumpIfTrue
  | jumpIfFalse
  | lessThan
  | equals
  | adjustRelativeBase
  | halt
deriving DecidableEq, Repr

/-- What a line places: an instruction, a pseudo-instruction of R99, or raw values. -/
inductive AsmItem where
  | instr (op : Mnemonic) (operands : List AsmOperand)
  | jmp (target : AsmOperand)
  | mov (source dest : AsmOperand)
  | nop
  | data (values : List AsmNum)
deriving DecidableEq, Repr

/-- A line: labels that name the address of what follows, and at most one item. -/
structure AsmLine where
  label : Option (List Char)
  item  : Option AsmItem
deriving DecidableEq, Repr

/-- An instruction with the modes of its operands, if it takes that many (R83). -/
def Mnemonic.build : Mnemonic → List Mode → Option Instr
  | .add, [m1, m2, m3] => some (.add m1 m2 m3)
  | .mul, [m1, m2, m3] => some (.mul m1 m2 m3)
  | .input, [m1] => some (.input m1)
  | .output, [m1] => some (.output m1)
  | .jumpIfTrue, [m1, m2] => some (.jumpIfTrue m1 m2)
  | .jumpIfFalse, [m1, m2] => some (.jumpIfFalse m1 m2)
  | .lessThan, [m1, m2, m3] => some (.lessThan m1 m2 m3)
  | .equals, [m1, m2, m3] => some (.equals m1 m2 m3)
  | .adjustRelativeBase, [m1] => some (.adjustRelativeBase m1)
  | .halt, [] => some .halt
  | _, _ => none

/-- The mode an operand assembles to (R100). -/
def AsmOperand.mode : AsmOperand → Mode
  | .position _ => .position
  | .immediate _ => .immediate
  | .relative _ _ => .relative

/-- The values of labels. -/
abbrev Labels := List (List Char × Word)

/-- The value of a label, none if it is not defined. -/
def lookupLabel (name : List Char) : Labels → Option Word
  | [] => none
  | (n, v) :: ls => if n = name then some v else lookupLabel name ls

/-- The value of `N`. -/
def AsmNum.value (ls : Labels) : AsmNum → Option Word
  | .lit v => some v
  | .label name => lookupLabel name ls

/-- The raw value an operand assembles to: `N`, or `-N` for `rb-N` (R98). -/
def AsmOperand.raw (ls : Labels) : AsmOperand → Option Word
  | .position n => n.value ls
  | .immediate n => n.value ls
  | .relative negated n => (n.value ls).map fun v => if negated then -v else v

/-- The values of a list, none if one has no value. -/
def allSome {α : Type} : List (Option α) → Option (List α)
  | [] => some []
  | some a :: as => (allSome as).map (a :: ·)
  | none :: _ => none

/-- The cells of an instruction: its word, then the raw values in order (R100); the assembler refuses an Immediate write
operand (R88). -/
def assembleInstr (i : Instr) (raws : List Word) : Option (List Word) :=
  if i.wellFormed && raws.length == i.arity then some (encode i :: raws) else none

/-- The cells of an operation with its operands. -/
def assembleOp (ls : Labels) (op : Mnemonic) (operands : List AsmOperand) : Option (List Word) :=
  match op.build (operands.map AsmOperand.mode), allSome (operands.map (AsmOperand.raw ls)) with
  | some i, some raws => assembleInstr i raws
  | _, _ => none

/-- The cells of an item, pseudo-instructions by their expansions (R99). -/
def AsmItem.cells (ls : Labels) : AsmItem → Option (List Word)
  | .instr op operands => assembleOp ls op operands
  | .jmp t => assembleOp ls .jumpIfTrue [.immediate (.lit 1), t]
  | .mov s d => assembleOp ls .add [s, .immediate (.lit 0), d]
  | .nop => assembleOp ls .jumpIfFalse [.immediate (.lit 1), .immediate (.lit 0)]
  | .data values => allSome (values.map (AsmNum.value ls))

/-- The number of cells an item takes. -/
def AsmItem.size : AsmItem → Nat
  | .instr _ operands => 1 + operands.length
  | .jmp _ => 3
  | .mov _ _ => 4
  | .nop => 3
  | .data values => values.length

/-- The number of cells a line takes. -/
def AsmLine.size (l : AsmLine) : Nat :=
  match l.item with
  | some it => it.size
  | none => 0

/-- The labels of a program whose first line is at address `a`: each names the address of what follows it (R98). -/
def labelsFrom (a : Nat) : List AsmLine → Labels
  | [] => []
  | l :: ls =>
    match l.label with
    | some n => (n, (a : Int)) :: labelsFrom (a + l.size) ls
    | none => labelsFrom (a + l.size) ls

/-- The cells of the lines, in order. -/
def assembleLines (lbls : Labels) : List AsmLine → Option (List Word)
  | [] => some []
  | l :: ls =>
    match (match l.item with | some it => it.cells lbls | none => some []), assembleLines lbls ls with
    | some cs, some rest => some (cs ++ rest)
    | _, _ => none

/-- Whether no label is defined twice (log entry 14). -/
def labelsDistinct (lbls : Labels) : Bool :=
  decide (lbls.Pairwise fun x y => x.1 ≠ y.1)

/-- The program of an assembly program placed at address 0 (R98 to R100). -/
def assemble (ls : List AsmLine) : Option (List Word) :=
  if labelsDistinct (labelsFrom 0 ls) then assembleLines (labelsFrom 0 ls) ls else none

/-- The instruction at the head of a sequence of cells, its raw parameters, and the cells after it; `x` is the decoder's
`EXTRA_DIGITS`. -/
def disassembleInstr (x : ExtraDigits) : List Word → Option (Instr × List Word × List Word)
  | [] => none
  | w :: cells =>
    match decode x w with
    | .error _ => none
    | .ok i => if i.arity ≤ cells.length then some (i, cells.take i.arity, cells.drop i.arity) else none

/-- A label's characters (log entry 14): letters, digits and `_`. -/
def isLabelChar (c : Char) : Bool :=
  (decide (97 ≤ c.toNat) && decide (c.toNat ≤ 122)) || (decide (65 ≤ c.toNat) && decide (c.toNat ≤ 90)) ||
    (digitValue c).isSome || c = '_'

/-- A label: label characters, the first no digit (log entry 14). -/
def isLabel : List Char → Bool
  | [] => false
  | c :: cs => (digitValue c).isNone && isLabelChar c && cs.all isLabelChar

/-- `N` as text. -/
def parseNum (t : List Char) : Option AsmNum :=
  match parseInteger t with
  | some v => some (.lit v)
  | none => if isLabel t then some (.label t) else none

/-- An operand as text (R98). -/
def parseOperand (t : List Char) : Option AsmOperand :=
  match t with
  | '#' :: n => (parseNum n).map .immediate
  | ['r', 'b'] => some (.relative false (.lit 0))
  | 'r' :: 'b' :: '+' :: n => (parseNum n).map (.relative false)
  | 'r' :: 'b' :: '-' :: n => (parseNum n).map (.relative true)
  | n => (parseNum n).map .position

/-- The text before and after the first blank. -/
def splitWord : List Char → List Char × List Char
  | [] => ([], [])
  | c :: cs => if isBlank c then ([], cs) else (c :: (splitWord cs).1, (splitWord cs).2)

/-- The comma-separated pieces of a text, each trimmed; none for an empty text. -/
def pieces (t : List Char) : List (List Char) :=
  match trim t with
  | [] => []
  | c :: cs => (splitAtChar ',' (c :: cs)).map trim

/-- The mnemonics as text (R98). -/
def mnemonicTable : List (List Char × Mnemonic) :=
  [(['a', 'd', 'd'], .add),
   (['m', 'u', 'l'], .mul),
   (['i', 'n', 'p', 'u', 't'], .input),
   (['o', 'u', 't', 'p', 'u', 't'], .output),
   (['j', 'u', 'm', 'p', '-', 'i', 'f', '-', 't', 'r', 'u', 'e'], .jumpIfTrue),
   (['j', 'u', 'm', 'p', '-', 'i', 'f', '-', 'f', 'a', 'l', 's', 'e'], .jumpIfFalse),
   (['l', 'e', 's', 's', '-', 't', 'h', 'a', 'n'], .lessThan),
   (['e', 'q', 'u', 'a', 'l', 's'], .equals),
   (['a', 'd', 'j', 'u', 's', 't', '-', 'r', 'e', 'l', 'a', 't', 'i', 'v', 'e', '-', 'b', 'a', 's', 'e'],
     .adjustRelativeBase),
   (['h', 'a', 'l', 't'], .halt)]

/-- The mnemonic a text names. -/
def lookupMnemonic (t : List Char) : List (List Char × Mnemonic) → Option Mnemonic
  | [] => none
  | (n, op) :: rest => if n = t then some op else lookupMnemonic t rest

/-- An item as text: a mnemonic, a pseudo-instruction or `data`, then its operands (R98, R99). -/
def parseItem (t : List Char) : Option AsmItem :=
  let name := (splitWord t).1
  let args := pieces (splitWord t).2
  if name = ['d', 'a', 't', 'a'] then (allSome (args.map parseNum)).map .data
  else
    match lookupMnemonic name mnemonicTable, allSome (args.map parseOperand) with
    | some op, some operands => some (.instr op operands)
    | none, some [] => if name = ['n', 'o', 'p'] then some .nop else none
    | none, some [t] => if name = ['j', 'm', 'p'] then some (.jmp t) else none
    | none, some [s, d] => if name = ['m', 'o', 'v'] then some (.mov s d) else none
    | _, _ => none

/-- A line without its comment (R98). -/
def dropComment : List Char → List Char
  | [] => []
  | c :: cs => if c = ';' then [] else c :: dropComment cs

/-- The item of a line after its label, if any. -/
def parseBody (label : Option (List Char)) (t : List Char) : Option AsmLine :=
  match trim t with
  | [] => some ⟨label, none⟩
  | c :: cs => (parseItem (c :: cs)).map fun it => ⟨label, some it⟩

/-- A line as text (R98). DESIGN CHOICE (log entry 14): the numeric address before each line of the spec's listings (`0:`), which
R98 does not describe, is an annotation of the listing and no part of the syntax, so a line that begins with one is refused. -/
def parseLine (t : List Char) : Option AsmLine :=
  match splitAtChar ':' (dropComment t) with
  | [body] => parseBody none body
  | [l, body] => if isLabel (trim l) then parseBody (some (trim l)) body else none
  | _ => none

/-- An assembly program as text, one line per line feed: its cells, or none. -/
def assembleText (text : List Char) : Option (List Word) :=
  (allSome ((splitAtChar '\n' text).map parseLine)).bind assemble

end Sys2Proof.Machine
end

