-- ==== Sys2Proof/Machine/HostOps.lean ====
section
/-! DEFINITION. Every operation of the host on a machine (50_execution_and_host.md R173 to R189; 70_reset_and_hazards.md R240 to
R243): load, step, run, push_input, pop_output, peek_memory, halted, reset and fork. A host operation happens only between
steps (R183). -/

namespace Sys2Proof.Machine

/-- A machine right after loading program `P` (R33, R240). -/
def State.loaded (p : Params) (P : List Word) : State :=
  { params := p, mem := Memory.ofProgram P, ptr := 0, rb := 0, inQ := [], outQ := [], run := .ready, fault := none, image := P }

/-- `load(program)` (R240, R241): refused, and no machine created, for a program longer than a finite `MEM_SIZE`, and for one
with a value outside `WORD` (log entry 12). -/
def load (p : Params) (P : List Word) : Option State :=
  if fits p.memSize P.length && P.all (wordOk p) then some (State.loaded p P) else none

/-- Loading a program text (R96, R97): a parse error creates no machine. -/
def loadText (p : Params) (text : List Char) : Option State :=
  (parseProgram p text).bind (load p)

/-- The results of one step (R173). The record of `fault` is what the machine's `fault` component holds (log entry 13). -/
inductive StepResult where
  | continued
  | halted
  | ioWait
  | fault (record : Option FaultRecord)
deriving DecidableEq, Repr

/-- The results of `run` (R177). -/
inductive RunResult where
  | halted
  | ioWait
  | fault (record : Option FaultRecord)
deriving DecidableEq, Repr

/-- The state a step leaves. `step` always answers a next state (R171), so the other two cases do not arise. -/
def State.stepped (s : State) : State :=
  match step s with
  | .next t => t
  | .fault _ => s
  | .refused _ => s

/-- The result of a step that left state `t` (R171). -/
def State.stepResult (t : State) : StepResult :=
  match t.run with
  | .ready => .continued
  | .running => .continued
  | .ioWait => .ioWait
  | .halted => .halted
  | .faulted => .fault t.fault

/-- `step()` (R174). -/
def hostStep (s : State) : StepResult × State :=
  (s.stepped.stepResult, s.stepped)

/-- The loop of `run` (R176) for at most `fuel` steps; no result when the loop has not returned by then (R178; log entry 11). -/
def runLoop : Nat → State → Option RunResult × State
  | 0, s => (none, s)
  | fuel + 1, s =>
    match s.stepped.stepResult with
    | .continued => runLoop fuel s.stepped
    | .halted => (some .halted, s.stepped)
    | .ioWait => (some .ioWait, s.stepped)
    | .fault r => (some (.fault r), s.stepped)

/-- Whether the values can be appended to the input queue (R179). -/
def State.accepts (s : State) (vs : List Word) : Bool :=
  fits s.params.inCap (s.inQ.length + vs.length) && vs.all (wordOk s.params)

/-- The values appended to the input queue, in order. -/
def State.withInputs (s : State) (vs : List Word) : State :=
  { s with inQ := s.inQ ++ vs }

/-- `push_input(v)` (R179): allowed in every run state; refused, with no change, when the value cannot be appended. -/
def pushInput (v : Word) (s : State) : Bool × State :=
  if s.accepts [v] then (true, s.withInputs [v]) else (false, s)

/-- What a call of `run` comes to: refused, returned with a result, or still running after the steps counted. -/
inductive RunReply where
  | refused
  | returned (r : RunResult)
  | unfinished
deriving DecidableEq, Repr

/-- `run` once its inputs are appended (R176): a terminal machine returns at once, else the loop. -/
def runAccepted (fuel : Nat) (s : State) : RunReply × State :=
  match s.run with
  | .halted => (.returned .halted, s)
  | .faulted => (.returned (.fault s.fault), s)
  | .ready | .running | .ioWait =>
    match runLoop fuel s with
    | (some r, t) => (.returned r, t)
    | (none, t) => (.unfinished, t)

/-- `run(inputs)` (R176), followed for at most `fuel` steps. -/
def hostRun (fuel : Nat) (inputs : List Word) (s : State) : RunReply × State :=
  if s.accepts inputs then runAccepted fuel (s.withInputs inputs) else (.refused, s)

/-- `pop_output()` (R180). -/
def popOutput (s : State) : Option Word × State :=
  match s.outQ with
  | [] => (none, s)
  | v :: q => (some v, { s with outQ := q })

/-- `peek_memory(addr)` (R181): 0 beyond the last address, never a fault. -/
def peekMemory (a : Nat) (s : State) : Word :=
  if addrOk s.params (a : Int) then s.mem.read a else 0

/-- `halted()` (R182): false in `Faulted`. -/
def haltedQuery (s : State) : Bool :=
  decide (s.run = .halted)

/-- `reset()` (R242): the loaded program again, allowed in every run state; `image` is kept. -/
def State.hostReset (s : State) : State :=
  State.loaded s.params s.image

/-- `fork()` (R243): the original and a full copy, `image` included; values share nothing. -/
def fork (s : State) : State × State :=
  (s, s)

/-- The operations of the host on a loaded machine (R170). `run` carries the number of steps it is followed for. -/
inductive HostCall where
  | step
  | run (fuel : Nat) (inputs : List Word)
  | pushInput (v : Word)
  | popOutput
  | peekMemory (a : Nat)
  | halted
  | reset
  | fork
deriving DecidableEq, Repr

/-- What a host operation returns. -/
inductive HostReply where
  | stepped (r : StepResult)
  | ran (r : RunReply)
  | pushed (accepted : Bool)
  | popped (v : Option Word)
  | peeked (v : Word)
  | halted (b : Bool)
  | done
  | forked (copy : State)
deriving DecidableEq, Repr

/-- One host operation: its reply and the machine after it (R183). -/
def hostCall (c : HostCall) (s : State) : HostReply × State :=
  match c with
  | .step => (.stepped (hostStep s).1, (hostStep s).2)
  | .run fuel inputs => (.ran (hostRun fuel inputs s).1, (hostRun fuel inputs s).2)
  | .pushInput v => (.pushed (pushInput v s).1, (pushInput v s).2)
  | .popOutput => (.popped (popOutput s).1, (popOutput s).2)
  | .peekMemory a => (.peeked (peekMemory a s), s)
  | .halted => (.halted (haltedQuery s), s)
  | .reset => (.done, s.hostReset)
  | .fork => (.forked (fork s).2, (fork s).1)

/-- A sequence of host operations, in the one order in which the host makes them (R183, R247): the machine at the end. -/
def hostCalls : List HostCall → State → State
  | [], s => s
  | c :: cs, s => hostCalls cs (hostCall c s).2

/-- The same sequence's replies, in order: all that the host observes (R185). -/
def hostReplies : List HostCall → State → List HostReply
  | [], _ => []
  | c :: cs, s => (hostCall c s).1 :: hostReplies cs (hostCall c s).2

end Sys2Proof.Machine
end

