-- ==== Sys2Proof/Machine/Priority.lean ====
section
/-! DEFINITION. The checks of a step in the declarative form of 60_exceptions.md R214: each check as the fault it raises, if
any, and the first of a list. The meanings do not use these; the statements compare the meanings with them. -/

namespace Sys2Proof.Machine

/-- The first fault that applies (R214). -/
def firstFault : List (Option Raise) → Option Raise
  | [] => none
  | some r :: _ => some r
  | none :: cs => firstFault cs

/-- `Overflow` of a computed value (R211 code 7), for parameter `i` if any. -/
def State.wordFault (s : State) (i : Option Nat) (v : Word) : Option Raise :=
  if wordOk s.params v then none else some ⟨.overflow, i, v⟩

/-- `NegativeAddress`, then `AddressLimit` (R211 codes 5 and 6), for parameter `i` if any. -/
def State.addrFault (s : State) (i : Option Nat) (a : Word) : Option Raise :=
  if addrOk s.params a then none
  else some ⟨if a < 0 then .negativeAddress else .addressLimit, i, a⟩

/-- The raw value of parameter `i`: the cell `ptr + i` (R84). -/
def State.raw (s : State) (i : Nat) : Word :=
  s.mem.read (s.ptr + (i : Int)).toNat

/-- The effective address of parameter `i` in a mode that has one: the raw value, plus `rb` in Relative mode (R89 to R91). -/
def State.effAddr (s : State) (i : Nat) (m : Mode) : Word :=
  match m with
  | .position => s.raw i
  | .immediate => s.raw i
  | .relative => s.raw i + s.rb

/-- The value of read operand `i` (R89). -/
def State.operand (s : State) (i : Nat) (m : Mode) : Word :=
  match m with
  | .position => s.mem.read (s.effAddr i m).toNat
  | .immediate => s.raw i
  | .relative => s.mem.read (s.effAddr i m).toNat

/-- The checks on the effective address of parameter `i` (R214 point 6): none in Immediate mode. -/
def State.effFault (s : State) (i : Nat) (m : Mode) : Option Raise :=
  match m with
  | .position => s.addrFault (some i) (s.effAddr i m)
  | .immediate => none
  | .relative => firstFault [s.wordFault (some i) (s.effAddr i m), s.addrFault (some i) (s.effAddr i m)]

/-- The checks on parameter `i`, in the order of R214 point 6: the address of its cell, then its effective address. -/
def State.paramFault (s : State) (i : Nat) (m : Mode) : Option Raise :=
  firstFault [s.wordFault (some i) (s.ptr + (i : Int)), s.addrFault (some i) (s.ptr + (i : Int)), s.effFault i m]

/-- `Overflow` of the `ptr` advance past `length` cells (R214 point 7). -/
def State.advanceFault (s : State) (length : Nat) : Option Raise :=
  s.wordFault none (s.ptr + (length : Int))

/-- The address parameter `j` stores to, where its checks pass. -/
def State.destination (s : State) (j : Nat) (m : Mode) : Option Nat :=
  match s.paramFault j m, m with
  | none, .position => some (s.effAddr j m).toNat
  | none, .relative => some (s.effAddr j m).toNat
  | _, _ => none

end Sys2Proof.Machine
end

