-- ==== Sys2Proof/Safety.lean ====
section
/-! DEFINITION. What holds of every state a run reaches, in the terms the statements use. -/

namespace Sys2Proof.Machine

/-- The parameter values R5 allows: `MEM_SIZE` is `∞` or a positive natural. -/
abbrev paramsAllowed (p : Params) : Prop :=
  p.memSize ≠ some 0

/-- Memory is in its canonical form, and every listed cell has an address of the machine and a value of the word model
(R50, R5). -/
abbrev memoryLegal (p : Params) (m : Memory) : Prop :=
  m.wf ∧ ∀ c ∈ m, addrOk p (c.1 : Int) = true ∧ wordOk p c.2 = true

/-- A sequence of words of the word model. -/
abbrev wordsLegal (p : Params) (vs : List Word) : Prop :=
  ∀ v ∈ vs, wordOk p v = true

/-- The legal states: every component has the type R20 gives it under the machine's parameters, the queues and the image fit
(R5, R241), and there is a fault record exactly in `Faulted` (R30). -/
structure State.Legal (s : State) : Prop where
  params : paramsAllowed s.params
  mem    : memoryLegal s.params s.mem
  ptr    : wordOk s.params s.ptr = true
  rb     : wordOk s.params s.rb = true
  inQ    : wordsLegal s.params s.inQ
  outQ   : wordsLegal s.params s.outQ
  image  : wordsLegal s.params s.image
  inCap  : fits s.params.inCap s.inQ.length = true
  outCap : fits s.params.outCap s.outQ.length = true
  memCap : fits s.params.memSize s.image.length = true
  fault  : s.fault.isSome = true ↔ s.run = .faulted

/-- The states in which a step executes: not terminal (R29, R171). -/
abbrev State.live (s : State) : Prop :=
  s.run ≠ .halted ∧ s.run ≠ .faulted

/-- The values of R33 for parameters `p` and program `P`. -/
structure State.Installed (s : State) (p : Params) (P : List Word) : Prop where
  params  : s.params = p
  mem     : ∀ a, s.mem.read a = P.getD a 0
  ptr     : s.ptr = 0
  rb      : s.rb = 0
  inQ     : s.inQ = []
  outQ    : s.outQ = []
  run     : s.run = .ready
  fault   : s.fault = none
  image   : s.image = P

/-- The word at `ptr` can be fetched and decodes to `i` (R80, R93). -/
abbrev State.fetches (s : State) (i : Instr) : Prop :=
  addrOk s.params s.ptr = true ∧ decode s.params.extraDigits (s.mem.read s.ptr.toNat) = .ok i

/-- The target of a jump that is taken in state `s` (R140, R141); none for every other instruction. -/
def State.takenTarget (s : State) : Instr → Option Word
  | .jumpIfTrue m1 m2 => if s.operand 1 m1 = 0 then none else some (s.operand 2 m2)
  | .jumpIfFalse m1 m2 => if s.operand 1 m1 = 0 then some (s.operand 2 m2) else none
  | .add _ _ _ => none
  | .mul _ _ _ => none
  | .input _ => none
  | .output _ => none
  | .lessThan _ _ _ => none
  | .equals _ _ _ => none
  | .adjustRelativeBase _ => none
  | .halt => none

/-- The value that a completed instruction stores in its destination cell, from the state before (R120, R121, R130, R150,
R151); none for the instructions that store nothing, and for an input with an empty queue. -/
def State.storedValue (s : State) : Instr → Option Word
  | .add m1 m2 _ => some (s.operand 1 m1 + s.operand 2 m2)
  | .mul m1 m2 _ => some (s.operand 1 m1 * s.operand 2 m2)
  | .input _ => s.inQ.head?
  | .lessThan m1 m2 _ => some (if s.operand 1 m1 < s.operand 2 m2 then 1 else 0)
  | .equals m1 m2 _ => some (if s.operand 1 m1 = s.operand 2 m2 then 1 else 0)
  | .output _ => none
  | .jumpIfTrue _ _ => none
  | .jumpIfFalse _ _ => none
  | .adjustRelativeBase _ => none
  | .halt => none

/-- A machine the host can have: loaded, and after some sequence of host operations (R247). -/
def State.reachable (s : State) : Prop :=
  ∃ p P s₀ calls, paramsAllowed p ∧ load p P = some s₀ ∧ hostCalls calls s₀ = s

end Sys2Proof.Machine
end

