-- ==== Sys2Proof/Certificates/Slice0/Obligations.lean ====
section
/-! DEFINITION. The statements about the model. Each docstring names the rules of spec/ it formalises. A fault is a next state
(60_exceptions.md R215), so `exec` and `step` always answer one; `State.paramFault`, `State.operand` and `State.effAddr` are the
declarative readings of R84, R89, R90 and R214 of Machine/Priority.lean. -/

open Sys2Proof Sys2Proof.Machine

/-! ### Load, reset, start -/

/-- R33, R240, R242: after load and after the host's reset every component has the value of R33's table, with the loaded program
or the kept image as `P`. -/
def Obligations.LoadAndResetInstallTheProgram : Prop :=
  (∀ p P s, load p P = some s → s.Installed p P) ∧
  (∀ s : State, s.hostReset.Installed s.params s.image)

/-- R241: of the sequences of words, `load` refuses exactly those longer than a finite `MEM_SIZE`; and a machine loaded with the
empty program has every cell 0 and faults with `UnknownOpcode`, word 0, at its first step. -/
def Obligations.LoadAcceptsWhatFits : Prop :=
  (∀ p P, wordsLegal p P → ((load p P = none) ↔ ∃ n, p.memSize = some n ∧ n < P.length)) ∧
  (∀ p, paramsAllowed p → ∃ s, load p [] = some s ∧ (∀ a, s.mem.read a = 0) ∧
    step s = .next { s with run := .faulted, fault := some ⟨.unknownOpcode, 0, some 0, none, 0⟩ })

/-- The state after reset is the machine loaded with the empty program under the default parameters (the model's choice, log
entries 1 and 3), and it is legal. -/
def Obligations.ResetIsALegalLoadedMachine : Prop :=
  load Params.default [] = some State.reset ∧ State.reset.Legal

/-- R242, R28: whatever the host does with a loaded machine, its reset brings back exactly the machine as loaded. -/
def Obligations.ResetRestoresTheLoadedMachine : Prop :=
  ∀ p P s₀ calls, load p P = some s₀ → (hostCalls calls s₀).hostReset = s₀

/-! ### The legal states -/

/-- R20, R29, R30, R50: every step keeps the state legal: memory canonical and inside the address space, every value a word, the
queues within their capacities, a fault record exactly when faulted. -/
def Obligations.StepKeepsLegal : Prop :=
  ∀ s t : State, s.Legal → step s = .next t → t.Legal

/-- Every host operation keeps the state legal. -/
def Obligations.HostCallsKeepLegal : Prop :=
  ∀ (c : HostCall) (s : State), s.Legal → (hostCall c s).2.Legal

/-- A machine is legal when loaded, and so is every machine the host can have. -/
def Obligations.ReachableIsLegal : Prop :=
  ∀ s : State, s.reachable → s.Legal

/-- R54: memory is only what its cells read: two memories in canonical form that read alike are equal. -/
def Obligations.MemoryIsItsContents : Prop :=
  ∀ m m' : Memory, m.wf → m'.wf → (∀ a, m.read a = m'.read a) → m = m'

/-- R51, R52: in a canonical memory a write is read back from its cell and leaves every other cell; and when an instruction with
a write operand completes, the cell its operand names reads the value the instruction computes, and every other cell as before. -/
def Obligations.WrittenCellsReadBack : Prop :=
  (∀ (m : Memory) (a b : Nat) (v : Word), m.wf → (m.write a v).read b = if b = a then v else m.read b) ∧
  (∀ (s t : State) (j : Instr) (m : Mode), s.mem.wf → s.live → s.fetches j → step s = .next t → t.run = .running →
    j.writeMode = some m →
    ∃ v, s.storedValue j = some v ∧ ∀ b : Nat, t.mem.read b = if (b : Int) = s.effAddr j.arity m then v else s.mem.read b)

/-! ### The step -/

/-- R171: when the word at `ptr` can be fetched and decodes to `i`, a step of a machine that is not terminal is `exec i`. -/
def Obligations.StepRunsTheDecodedInstruction : Prop :=
  ∀ (s : State) (i : Instr), s.live → s.fetches i → step s = exec i s

/-- R171, R174: a step of a halted or faulted machine changes nothing, and returns its halt or its record. -/
def Obligations.TerminalStepChangesNothing : Prop :=
  ∀ s : State,
    (s.run = .halted → step s = .next s ∧ hostStep s = (.halted, s)) ∧
    (s.run = .faulted → step s = .next s ∧ hostStep s = (.fault s.fault, s))

/-- R80, R53: the fetch at a negative `ptr` raises `NegativeAddress`, and at one beyond a finite memory `AddressLimit`; the record
names the address and no word, opcode or parameter. -/
def Obligations.FetchOutsideMemoryFaults : Prop :=
  ∀ s : State, s.live →
    (s.ptr < 0 →
      step s = .next { s with run := .faulted, fault := some ⟨.negativeAddress, s.ptr, none, none, s.ptr⟩ }) ∧
    (∀ n : Nat, s.params.memSize = some n → (n : Int) ≤ s.ptr → 0 ≤ s.ptr →
      step s = .next { s with run := .faulted, fault := some ⟨.addressLimit, s.ptr, none, none, s.ptr⟩ })

/-- R211 codes 1 to 4, R213, R215: a word that is fetched and does not decode faults with the decode fault's kind, the address of
the instruction, the word, and the parameter and value that the table of R211 gives. -/
def Obligations.DecodeFaultIsRecorded : Prop :=
  ∀ (s : State) (w : Word), s.live → addrOk s.params s.ptr = true → s.mem.read s.ptr.toNat = w →
    (decode s.params.extraDigits w = .error .unknownOpcode →
      step s = .next { s with run := .faulted, fault := some ⟨.unknownOpcode, s.ptr, some w, none, w⟩ }) ∧
    (∀ i d, decode s.params.extraDigits w = .error (.invalidMode i d) →
      step s = .next { s with run := .faulted, fault := some ⟨.invalidMode, s.ptr, some w, some i, (d : Int)⟩ }) ∧
    (decode s.params.extraDigits w = .error .extraDigits →
      step s = .next { s with run := .faulted, fault := some ⟨.extraDigits, s.ptr, some w, none, w⟩ }) ∧
    (∀ j, decode s.params.extraDigits w = .error (.invalidWriteTarget j) →
      step s = .next { s with run := .faulted, fault := some ⟨.invalidWriteTarget, s.ptr, some w, some j, (j : Int)⟩ })

/-- R172, R215: a step that faults changes only `run` and `fault`, and one that suspends only `run`; the record names the
instruction's address, its word where one was fetched, and that word's opcode (R213). -/
def Obligations.FailedStepChangesNothingElse : Prop :=
  ∀ s t : State, s.live → step s = .next t →
    (t.run = .faulted → ∃ r : FaultRecord, t = { s with run := .faulted, fault := some r } ∧ r.addr = s.ptr ∧
      (addrOk s.params s.ptr = true → r.word = some (s.mem.read s.ptr.toNat)) ∧
      (addrOk s.params s.ptr = false → r.word = none) ∧
      (∀ w, r.word = some w → (w < 0 → r.opcode = none) ∧ (0 ≤ w → r.opcode = some (w.toNat % 100))) ∧
      (r.word = none → r.opcode = none)) ∧
    (t.run = .ioWait → t = { s with run := .ioWait })

/-- R29: the codes of the run states and the transitions a step makes. -/
def Obligations.RunStateTransitions : Prop :=
  (RunState.ready.code = 0 ∧ RunState.running.code = 1 ∧ RunState.ioWait.code = 2 ∧ RunState.halted.code = 3 ∧
    RunState.faulted.code = 4) ∧
  (∀ s t : State, step s = .next t →
    (s.run = .halted → t = s) ∧ (s.run = .faulted → t = s) ∧
    (s.live →
      t.run ≠ .ready ∧
      (t.run = .halted ↔ s.fetches .halt) ∧
      (t.run = .ioWait ↔ ∃ m1, s.fetches (.input m1) ∧ s.paramFault 1 m1 = none ∧ s.inQ = []))) ∧
  (∀ s : State, s.hostReset.run = .ready) ∧
  (∀ p P s, load p P = some s → s.run = .ready)

/-- R173, R174: a step always answers a next state, and its result is `Continue`, `Halted`, `IOWait` or `Fault(record)` as the
run state after it says, the first exactly when an instruction other than halt completed. -/
def Obligations.StepHasFourResults : Prop :=
  ∀ s : State, ∃ t, step s = .next t ∧ (hostStep s).2 = t ∧
    ((hostStep s).1 = .continued ↔ t.run = .running ∨ t.run = .ready) ∧
    (s.live → t.run ≠ .ready) ∧
    ((hostStep s).1 = .halted ↔ t.run = .halted) ∧
    ((hostStep s).1 = .ioWait ↔ t.run = .ioWait) ∧
    (∀ r, (hostStep s).1 = .fault r ↔ t.run = .faulted ∧ t.fault = r)

/-- R25: a completed instruction other than halt advances `ptr` by its length, or sets it to the target of a taken jump; halt, a
suspension and a fault leave it. -/
def Obligations.PtrAdvancesJumpsOrStays : Prop :=
  ∀ s t : State, s.live → step s = .next t →
    (t.run = .running → ∃ i, s.fetches i ∧
      (∀ target, s.takenTarget i = some target → t.ptr = target) ∧
      (s.takenTarget i = none → t.ptr = s.ptr + (i.length : Int))) ∧
    (t.run ≠ .running → t.ptr = s.ptr)

/-- R27: only instruction 9 writes `rb`. -/
def Obligations.OnlyAdjustWritesRb : Prop :=
  ∀ s t : State, step s = .next t → t.rb ≠ s.rb →
    s.live ∧ ∃ m1, s.fetches (.adjustRelativeBase m1) ∧ t.rb = s.rb + s.operand 1 m1

/-- R20: only instructions 1, 2, 3, 7 and 8 write memory, and each only the one cell its write operand names. -/
def Obligations.OnlyTheDestinationCellChanges : Prop :=
  ∀ (s t : State) (b : Nat), step s = .next t → t.mem.read b ≠ s.mem.read b →
    s.live ∧ ∃ i m, s.fetches i ∧ i.writeMode = some m ∧ s.destination i.arity m = some b

/-- R132: `InQ` is consumed only by input, at its head, and `OutQ` appended to only by output, at its tail; of the host's queue
operations `push_input` appends to `InQ` and leaves `OutQ`, and `pop_output` (R180) returns and removes the head of `OutQ`, or
returns none of an empty one, and changes nothing else. -/
def Obligations.QueuesAreFifo : Prop :=
  (∀ s t : State, step s = .next t →
    (t.inQ = s.inQ ∨ ∃ m1 v, s.live ∧ s.fetches (.input m1) ∧ s.inQ = v :: t.inQ ∧ t.run = .running) ∧
    (t.outQ = s.outQ ∨ ∃ m1, s.live ∧ s.fetches (.output m1) ∧ t.outQ = s.outQ ++ [s.operand 1 m1] ∧ t.run = .running)) ∧
  (∀ (v : Word) (s : State),
    ((pushInput v s).2.inQ = s.inQ ∨ (pushInput v s).2.inQ = s.inQ ++ [v]) ∧ (pushInput v s).2.outQ = s.outQ) ∧
  (∀ s : State, (s.outQ = [] → popOutput s = (none, s)) ∧
    ∀ v q, s.outQ = v :: q → popOutput s = (some v, { s with outQ := q }))

/-- R20, R28: the image and the parameters are never changed by a host operation on a loaded machine, whatever runs in it. -/
def Obligations.ImageIsNeverWritten : Prop :=
  ∀ (c : HostCall) (s : State), (hostCall c s).2.image = s.image ∧ (hostCall c s).2.params = s.params

/-- R65, R248: the word that any writing instruction stores where the next instruction is fetched is what the next step fetches:
the instruction it decodes to runs, and a word that does not decode, a negative one included, faults as R211 says of it. -/
def Obligations.StoredWordIsFetchedNext : Prop :=
  ∀ (s t : State) (j : Instr) (m : Mode), s.mem.wf → s.live → s.fetches j → step s = .next t → t.run = .running →
    j.writeMode = some m → s.effAddr j.arity m = t.ptr →
    ∃ v, s.storedValue j = some v ∧
      (∀ i, decode s.params.extraDigits v = .ok i → step t = exec i t) ∧
      (∀ f, decode s.params.extraDigits v = .error f → step t = .next (t.takeFault (decodeRaise v f)))

/-- R211: under the default parameters a step can raise only the fault codes 1 to 5. -/
def Obligations.DefaultParametersRaiseCodesOneToFive : Prop :=
  ∀ s t : State, s.params = Params.default → s.live → step s = .next t → t.run = .faulted →
    ∃ r, t.fault = some r ∧ 1 ≤ r.code ∧ r.code ≤ 5

/-- R5, R6, R122: the parameters only refuse. A step that does not fault under any word model, memory size and capacities, with
`EXTRA_DIGITS = Fault`, is the step of the machine with the default parameters. -/
def Obligations.ParametersOnlyAddFaults : Prop :=
  ∀ s t : State, s.params.extraDigits = .fault → step s = .next t → t.run ≠ .faulted →
    step { s with params := Params.default } = .next { t with params := Params.default }

/-! ### Decoding -/

/-- R81, R83: the words that are unknown opcodes. -/
def Obligations.UnknownOpcodeWords : Prop :=
  ∀ (x : ExtraDigits) (w : Word),
    decode x w = .error .unknownOpcode ↔ w < 0 ∨ w.toNat % 100 ∉ [1, 2, 3, 4, 5, 6, 7, 8, 9, 99]

/-- R85: `InvalidMode` is raised exactly on the lowest parameter of a valid opcode whose mode digit is 3 to 9, with that digit. -/
def Obligations.InvalidModeWords : Prop :=
  ∀ (x : ExtraDigits) (w : Word) (i d : Nat),
    decode x w = .error (.invalidMode i d) ↔
      0 ≤ w ∧ (∃ n, arityOf (w.toNat % 100) = some n ∧ 1 ≤ i ∧ i ≤ n) ∧
      w.toNat / 10 ^ (i + 1) % 10 = d ∧ 3 ≤ d ∧ ∀ j, 1 ≤ j → j < i → w.toNat / 10 ^ (j + 1) % 10 ≤ 2

/-- R86: `ExtraDigits` is raised exactly under `EXTRA_DIGITS = Fault`, on a word whose opcode and modes are valid and that has a
non-zero digit of weight `10^(n+2)` or higher; under `Ignore` those digits are discarded and the word decodes without them. -/
def Obligations.ExtraDigitsWords : Prop :=
  (∀ (x : ExtraDigits) (w : Word),
    decode x w = .error .extraDigits ↔
      x = .fault ∧ 0 ≤ w ∧ ∃ n, arityOf (w.toNat % 100) = some n ∧ w.toNat / 10 ^ (n + 2) ≠ 0 ∧
        ∀ j, 1 ≤ j → j ≤ n → w.toNat / 10 ^ (j + 1) % 10 ≤ 2) ∧
  (∀ w n : Nat, arityOf (w % 100) = some n → decode .ignore w = decode .ignore (w % 10 ^ (n + 2) : Nat))

/-- R88: `InvalidWriteTarget` is raised exactly on a word whose opcode, modes and extra digits pass and whose write parameter `j`
is in Immediate mode. -/
def Obligations.InvalidWriteTargetWords : Prop :=
  ∀ (x : ExtraDigits) (w : Word) (j : Nat),
    decode x w = .error (.invalidWriteTarget j) ↔
      0 ≤ w ∧ writeParamOf (w.toNat % 100) = some j ∧ w.toNat / 10 ^ (j + 1) % 10 = 1 ∧
      (∀ k, 1 ≤ k → k < j → w.toNat / 10 ^ (k + 1) % 10 ≤ 2) ∧ (x = .fault → w.toNat / 10 ^ (j + 2) = 0)

/-- R92, R93: under `EXTRA_DIGITS = Fault` a word decodes to `i` exactly when `i` is well formed and the word is its encoding:
each instruction has one word and each valid word one instruction. -/
def Obligations.DecodeIsInverseOfEncode : Prop :=
  ∀ (w : Word) (i : Instr), decode .fault w = .ok i ↔ i.wellFormed = true ∧ w = encode i

/-- R86, R93: under `EXTRA_DIGITS = Ignore` a word decodes to `i` exactly when its digits up to the last mode digit are the
encoding of `i`. -/
def Obligations.DecodeIgnoringExtraDigits : Prop :=
  ∀ (w : Word) (i : Instr),
    decode .ignore w = .ok i ↔ i.wellFormed = true ∧ 0 ≤ w ∧ w % 10 ^ (i.arity + 2) = encode i

/-- R100, R84, R91: an assembled instruction, with any raw parameters, disassembles to itself and the cells after it. -/
def Obligations.AssembledInstructionReadsBack : Prop :=
  ∀ (x : ExtraDigits) (i : Instr) (raws rest cells : List Word),
    assembleInstr i raws = some cells →
    cells.length = i.length ∧ disassembleInstr x (cells ++ rest) = some (i, raws, rest)

/-- R101: words written out from the spec's word patterns decode to the instructions they stand for. -/
def Obligations.SampleWordsDecode : Prop :=
  decode .fault 1101 = .ok (.add .immediate .immediate .position) ∧
  decode .fault 1002 = .ok (.mul .position .immediate .position) ∧
  decode .fault 203 = .ok (.input .relative) ∧
  decode .fault 204 = .ok (.output .relative) ∧
  decode .fault 1105 = .ok (.jumpIfTrue .immediate .immediate) ∧
  decode .fault 2106 = .ok (.jumpIfFalse .immediate .relative) ∧
  decode .fault 21207 = .ok (.lessThan .relative .immediate .relative) ∧
  decode .fault 8 = .ok (.equals .position .position .position) ∧
  decode .fault 109 = .ok (.adjustRelativeBase .immediate) ∧
  decode .fault 99 = .ok .halt

/-! ### The instructions -/

/-- R120: the word `C B A 0 1`; `mem[d] <- v1 + v2` and `ptr <- ptr + 4`; the faults of its phases in their order.
The `param` of an `Overflow` of `ptr + i`, which `State.paramFault` gives, is the model's reading (log entry 8). -/
def Obligations.AddRule : Prop :=
  ∀ (s : State) (m1 m2 m3 : Mode) (v : Word) (checks : Option Raise), m3 ≠ .immediate →
    v = s.operand 1 m1 + s.operand 2 m2 →
    checks = firstFault [s.paramFault 1 m1, s.paramFault 2 m2, s.paramFault 3 m3, s.wordFault none v, s.advanceFault 4] →
    (∀ x, decode x (1 + 100 * m1.toDigit + 1000 * m2.toDigit + 10000 * m3.toDigit) = .ok (.add m1 m2 m3)) ∧
    (checks = none → exec (.add m1 m2 m3) s =
      .next { s with mem := s.mem.write (s.effAddr 3 m3).toNat v, ptr := s.ptr + 4, run := .running }) ∧
    (∀ r, checks = some r → exec (.add m1 m2 m3) s = .next (s.takeFault r))

/-- R121: the word `C B A 0 2`; `mem[d] <- v1 * v2` and `ptr <- ptr + 4`; the faults of its phases in their order.
The `param` of an `Overflow` of `ptr + i`, which `State.paramFault` gives, is the model's reading (log entry 8). -/
def Obligations.MulRule : Prop :=
  ∀ (s : State) (m1 m2 m3 : Mode) (v : Word) (checks : Option Raise), m3 ≠ .immediate →
    v = s.operand 1 m1 * s.operand 2 m2 →
    checks = firstFault [s.paramFault 1 m1, s.paramFault 2 m2, s.paramFault 3 m3, s.wordFault none v, s.advanceFault 4] →
    (∀ x, decode x (2 + 100 * m1.toDigit + 1000 * m2.toDigit + 10000 * m3.toDigit) = .ok (.mul m1 m2 m3)) ∧
    (checks = none → exec (.mul m1 m2 m3) s =
      .next { s with mem := s.mem.write (s.effAddr 3 m3).toNat v, ptr := s.ptr + 4, run := .running }) ∧
    (∀ r, checks = some r → exec (.mul m1 m2 m3) s = .next (s.takeFault r))

/-- R150: the word `C B A 0 7`; `mem[d] <- 1` if `v1 < v2`, else 0, and `ptr <- ptr + 4`; the faults of its phases in order.
The `param` of an `Overflow` of `ptr + i`, which `State.paramFault` gives, is the model's reading (log entry 8). -/
def Obligations.LessThanRule : Prop :=
  ∀ (s : State) (m1 m2 m3 : Mode) (v : Word) (checks : Option Raise), m3 ≠ .immediate →
    v = (if s.operand 1 m1 < s.operand 2 m2 then 1 else 0) →
    checks = firstFault [s.paramFault 1 m1, s.paramFault 2 m2, s.paramFault 3 m3, s.advanceFault 4] →
    (∀ x, decode x (7 + 100 * m1.toDigit + 1000 * m2.toDigit + 10000 * m3.toDigit) = .ok (.lessThan m1 m2 m3)) ∧
    (checks = none → exec (.lessThan m1 m2 m3) s =
      .next { s with mem := s.mem.write (s.effAddr 3 m3).toNat v, ptr := s.ptr + 4, run := .running }) ∧
    (∀ r, checks = some r → exec (.lessThan m1 m2 m3) s = .next (s.takeFault r))

/-- R151: the word `C B A 0 8`; `mem[d] <- 1` if `v1 = v2`, else 0, and `ptr <- ptr + 4`; the faults of its phases in order.
The `param` of an `Overflow` of `ptr + i`, which `State.paramFault` gives, is the model's reading (log entry 8). -/
def Obligations.EqualsRule : Prop :=
  ∀ (s : State) (m1 m2 m3 : Mode) (v : Word) (checks : Option Raise), m3 ≠ .immediate →
    v = (if s.operand 1 m1 = s.operand 2 m2 then 1 else 0) →
    checks = firstFault [s.paramFault 1 m1, s.paramFault 2 m2, s.paramFault 3 m3, s.advanceFault 4] →
    (∀ x, decode x (8 + 100 * m1.toDigit + 1000 * m2.toDigit + 10000 * m3.toDigit) = .ok (.equals m1 m2 m3)) ∧
    (checks = none → exec (.equals m1 m2 m3) s =
      .next { s with mem := s.mem.write (s.effAddr 3 m3).toNat v, ptr := s.ptr + 4, run := .running }) ∧
    (∀ r, checks = some r → exec (.equals m1 m2 m3) s = .next (s.takeFault r))

/-- R130: the word `A 0 3`; the destination's faults first, then an empty `InQ` suspends with nothing but the run state changed,
then the head of `InQ` goes to the destination and `ptr <- ptr + 2`.
The `param` of an `Overflow` of `ptr + i`, which `State.paramFault` gives, is the model's reading (log entry 8). -/
def Obligations.InputRule : Prop :=
  ∀ (s : State) (m1 : Mode), m1 ≠ .immediate →
    (∀ x, decode x (3 + 100 * m1.toDigit) = .ok (.input m1)) ∧
    (∀ r, s.paramFault 1 m1 = some r → exec (.input m1) s = .next (s.takeFault r)) ∧
    (s.paramFault 1 m1 = none → s.inQ = [] → exec (.input m1) s = .next { s with run := .ioWait }) ∧
    (∀ v q, s.paramFault 1 m1 = none → s.inQ = v :: q → s.advanceFault 2 = none → exec (.input m1) s =
      .next { s with mem := s.mem.write (s.effAddr 1 m1).toNat v, inQ := q, ptr := s.ptr + 2, run := .running }) ∧
    (∀ v q r, s.paramFault 1 m1 = none → s.inQ = v :: q → s.advanceFault 2 = some r →
      exec (.input m1) s = .next (s.takeFault r))

/-- R131: the word `A 0 4`; the operand's faults, then `QueueOverflow` with the value when `OutQ` is full, then the `ptr` advance;
else `OutQ <- OutQ ++ [v1]` and `ptr <- ptr + 2`.
The `param` of an `Overflow` of `ptr + i`, which `State.paramFault` gives, is the model's reading (log entry 8). -/
def Obligations.OutputRule : Prop :=
  ∀ (s : State) (m1 : Mode) (checks : Option Raise),
    checks = firstFault [s.paramFault 1 m1,
      (if s.params.outCap = some s.outQ.length then some ⟨.queueOverflow, none, s.operand 1 m1⟩ else none),
      s.advanceFault 2] →
    (∀ x, decode x (4 + 100 * m1.toDigit) = .ok (.output m1)) ∧
    (checks = none → exec (.output m1) s =
      .next { s with outQ := s.outQ ++ [s.operand 1 m1], ptr := s.ptr + 2, run := .running }) ∧
    (∀ r, checks = some r → exec (.output m1) s = .next (s.takeFault r))

/-- R140: the word `B A 0 5`; `ptr <- v2`, unchecked, when `v1 ≠ 0`, else `ptr <- ptr + 3`.
The `param` of an `Overflow` of `ptr + i`, which `State.paramFault` gives, is the model's reading (log entry 8). -/
def Obligations.JumpIfTrueRule : Prop :=
  ∀ (s : State) (m1 m2 : Mode),
    (∀ x, decode x (5 + 100 * m1.toDigit + 1000 * m2.toDigit) = .ok (.jumpIfTrue m1 m2)) ∧
    (∀ r, firstFault [s.paramFault 1 m1, s.paramFault 2 m2] = some r →
      exec (.jumpIfTrue m1 m2) s = .next (s.takeFault r)) ∧
    (s.paramFault 1 m1 = none → s.paramFault 2 m2 = none →
      (s.operand 1 m1 ≠ 0 → exec (.jumpIfTrue m1 m2) s = .next { s with ptr := s.operand 2 m2, run := .running }) ∧
      (s.operand 1 m1 = 0 → s.advanceFault 3 = none →
        exec (.jumpIfTrue m1 m2) s = .next { s with ptr := s.ptr + 3, run := .running }) ∧
      (∀ r, s.operand 1 m1 = 0 → s.advanceFault 3 = some r → exec (.jumpIfTrue m1 m2) s = .next (s.takeFault r)))

/-- R141: the word `B A 0 6`; `ptr <- v2`, unchecked, when `v1 = 0`, else `ptr <- ptr + 3`.
The `param` of an `Overflow` of `ptr + i`, which `State.paramFault` gives, is the model's reading (log entry 8). -/
def Obligations.JumpIfFalseRule : Prop :=
  ∀ (s : State) (m1 m2 : Mode),
    (∀ x, decode x (6 + 100 * m1.toDigit + 1000 * m2.toDigit) = .ok (.jumpIfFalse m1 m2)) ∧
    (∀ r, firstFault [s.paramFault 1 m1, s.paramFault 2 m2] = some r →
      exec (.jumpIfFalse m1 m2) s = .next (s.takeFault r)) ∧
    (s.paramFault 1 m1 = none → s.paramFault 2 m2 = none →
      (s.operand 1 m1 = 0 → exec (.jumpIfFalse m1 m2) s = .next { s with ptr := s.operand 2 m2, run := .running }) ∧
      (s.operand 1 m1 ≠ 0 → s.advanceFault 3 = none →
        exec (.jumpIfFalse m1 m2) s = .next { s with ptr := s.ptr + 3, run := .running }) ∧
      (∀ r, s.operand 1 m1 ≠ 0 → s.advanceFault 3 = some r → exec (.jumpIfFalse m1 m2) s = .next (s.takeFault r)))

/-- R160: the word `A 0 9`; `rb <- rb + v1`, the operand read with the old base, and `ptr <- ptr + 2`.
The `param` of an `Overflow` of `ptr + i`, which `State.paramFault` gives, is the model's reading (log entry 8). -/
def Obligations.AdjustRelativeBaseRule : Prop :=
  ∀ (s : State) (m1 : Mode) (checks : Option Raise),
    checks = firstFault [s.paramFault 1 m1, s.wordFault none (s.rb + s.operand 1 m1), s.advanceFault 2] →
    (∀ x, decode x (9 + 100 * m1.toDigit) = .ok (.adjustRelativeBase m1)) ∧
    (checks = none → exec (.adjustRelativeBase m1) s =
      .next { s with rb := s.rb + s.operand 1 m1, ptr := s.ptr + 2, run := .running }) ∧
    (∀ r, checks = some r → exec (.adjustRelativeBase m1) s = .next (s.takeFault r))

/-- R161: the word 99, alone under `EXTRA_DIGITS = Fault` and with any digits above under `Ignore`; `run <- Halted` and nothing
else; no later step executes anything. -/
def Obligations.HaltRule : Prop :=
  (∀ w : Word, decode .fault w = .ok .halt ↔ w = 99) ∧
  (∀ w : Word, decode .ignore w = .ok .halt ↔ 0 ≤ w ∧ w % 100 = 99) ∧
  (∀ s : State, exec .halt s = .next { s with run := .halted } ∧
    step { s with run := .halted } = .next { s with run := .halted })

/-- An instruction that no word decodes to (R88), with its write operand in Immediate mode, faults with `InvalidWriteTarget`
whatever else is wrong (the model's choice, log entry 9). -/
def Obligations.IllFormedInstructionFaults : Prop :=
  ∀ (i : Instr) (s : State), i.wellFormed = false →
    exec i s = .next (s.takeFault ⟨.invalidWriteTarget, some i.arity, (i.arity : Int)⟩)

/-! ### Operands -/

/-- R89, R91: under the default parameters a read operand is `mem(raw)`, `raw` itself or `mem(raw + rb)`, for any raw value whose
effective address is not negative; with a negative one it raises `NegativeAddress` with that address and the parameter. -/
def Obligations.ReadOperandByMode : Prop :=
  ∀ (s : State) (i : Nat) (raw : Word), s.params = Params.default → 0 ≤ s.ptr → s.mem.read (s.ptr + (i : Int)).toNat = raw →
    (readParam i .immediate s = .ok raw) ∧
    (0 ≤ raw → readParam i .position s = .ok (s.mem.read raw.toNat)) ∧
    (raw < 0 → readParam i .position s = .error ⟨.negativeAddress, some i, raw⟩) ∧
    (0 ≤ raw + s.rb → readParam i .relative s = .ok (s.mem.read (raw + s.rb).toNat)) ∧
    (raw + s.rb < 0 → readParam i .relative s = .error ⟨.negativeAddress, some i, raw + s.rb⟩)

/-- R90: under the default parameters a write operand names the cell `raw` or `raw + rb`, and faults when that is negative. -/
def Obligations.WriteAddressByMode : Prop :=
  ∀ (s : State) (j : Nat) (raw : Word), s.params = Params.default → 0 ≤ s.ptr → s.mem.read (s.ptr + (j : Int)).toNat = raw →
    (0 ≤ raw → writeParam j .position s = .ok raw.toNat) ∧
    (raw < 0 → writeParam j .position s = .error ⟨.negativeAddress, some j, raw⟩) ∧
    (0 ≤ raw + s.rb → writeParam j .relative s = .ok (raw + s.rb).toNat) ∧
    (raw + s.rb < 0 → writeParam j .relative s = .error ⟨.negativeAddress, some j, raw + s.rb⟩)

/-! ### Frames -/

/-- What add, mul, less-than and equals leave unchanged: `rb`, both queues, the image, the parameters, the fault record unless
they fault, and every cell but the one that `writeParam` of Machine/Operands.lean, which the meanings use, gives for parameter 3. -/
def Obligations.WritingInstructionsFrame : Prop :=
  ∀ (s t : State) (m1 m2 m3 : Mode) (i : Instr),
    i ∈ [Instr.add m1 m2 m3, Instr.mul m1 m2 m3, Instr.lessThan m1 m2 m3, Instr.equals m1 m2 m3] → exec i s = .next t →
    t.rb = s.rb ∧ t.inQ = s.inQ ∧ t.outQ = s.outQ ∧ t.image = s.image ∧ t.params = s.params ∧
    (t.run = .running ∧ t.fault = s.fault ∨ t.run = .faulted) ∧
    (∀ b, (∀ dm, m3.toDest = some dm → writeParam 3 dm s ≠ .ok b) → t.mem.read b = s.mem.read b)

/-- What input leaves unchanged: `rb`, `OutQ`, the image, the parameters, the fault record unless it faults, `InQ` unless it
completes, and every cell but the one that `writeParam` gives for parameter 1, which a suspension leaves too. -/
def Obligations.InputFrame : Prop :=
  ∀ (s t : State) (m1 : Mode), exec (.input m1) s = .next t →
    t.rb = s.rb ∧ t.outQ = s.outQ ∧ t.image = s.image ∧ t.params = s.params ∧
    ((t.run = .running ∨ t.run = .ioWait) ∧ t.fault = s.fault ∨ t.run = .faulted) ∧
    (t.run ≠ .running → t.inQ = s.inQ ∧ ∀ b, t.mem.read b = s.mem.read b) ∧
    (∀ b, (∀ dm, m1.toDest = some dm → writeParam 1 dm s ≠ .ok b) → t.mem.read b = s.mem.read b)

/-- What the instructions that store nothing leave unchanged: every cell, `InQ`, the image, the parameters; `OutQ` but for output;
`rb` but for adjust-relative-base; the fault record unless they fault. -/
def Obligations.NonWritingInstructionsFrame : Prop :=
  ∀ (s t : State) (m1 m2 : Mode) (i : Instr),
    i ∈ [Instr.output m1, Instr.jumpIfTrue m1 m2, Instr.jumpIfFalse m1 m2, Instr.adjustRelativeBase m1, Instr.halt] →
    exec i s = .next t →
    (∀ b, t.mem.read b = s.mem.read b) ∧ t.inQ = s.inQ ∧ t.image = s.image ∧ t.params = s.params ∧
    (i ≠ .output m1 → t.outQ = s.outQ) ∧ (i ≠ .adjustRelativeBase m1 → t.rb = s.rb) ∧
    (t.run ≠ .faulted → t.fault = s.fault)

/-! ### The host -/

/-- R179: `push_input` appends one value and does nothing else, in every run state; it is refused, with no change, exactly when a
finite `InQ` is full or the value is no word. -/
def Obligations.PushInputRule : Prop :=
  ∀ (v : Word) (s : State), s.Legal →
    ((s.params.inCap = some s.inQ.length ∨ wordOk s.params v = false) → pushInput v s = (false, s)) ∧
    (s.params.inCap ≠ some s.inQ.length → wordOk s.params v = true →
      pushInput v s = (true, { s with inQ := s.inQ ++ [v] }))

/-- R176, R179: `run(inputs)` refuses the whole call, with no change, when some input cannot be appended: in a legal state,
exactly when the inputs do not all fit a finite `InQ` or some input is no word. Else the inputs are in `InQ` before any step, a
halted or faulted machine returns at once, and any other machine runs the loop. -/
def Obligations.RunAppendsThenSteps : Prop :=
  ∀ (fuel : Nat) (inputs : List Word) (s : State),
    (s.Legal → ((hostRun fuel inputs s).1 = .refused ↔
      (∃ c, s.params.inCap = some c ∧ c < s.inQ.length + inputs.length) ∨ ∃ v ∈ inputs, wordOk s.params v = false)) ∧
    (s.accepts inputs = false → hostRun fuel inputs s = (.refused, s)) ∧
    (s.accepts inputs = true →
      (s.run = .halted → hostRun fuel inputs s = (.returned .halted, { s with inQ := s.inQ ++ inputs })) ∧
      (s.run = .faulted → hostRun fuel inputs s = (.returned (.fault s.fault), { s with inQ := s.inQ ++ inputs })) ∧
      (s.live → ∀ t r, runLoop fuel { s with inQ := s.inQ ++ inputs } = (some r, t) →
        hostRun fuel inputs s = (.returned r, t)))

/-- R176 to R178: the loop returns a result exactly when some step, each before it having continued, has that result; the machine
is then as that step left it. -/
def Obligations.RunReturnsAtTheFirstStop : Prop :=
  ∀ (fuel : Nat) (s t : State) (r : RunResult),
    runLoop fuel s = (some r, t) ↔
      ∃ k, k < fuel ∧ (∀ j, j < k → (State.stepped^[j] s).stepped.stepResult = .continued) ∧
        t = State.stepped^[k + 1] s ∧
        ((r = .halted ∧ t.stepResult = .halted) ∨ (r = .ioWait ∧ t.stepResult = .ioWait) ∨
          ∃ f, r = .fault f ∧ t.stepResult = .fault f)

/-- R187: running a waiting machine with no new input returns `IOWait` again and changes nothing. -/
def Obligations.WaitingAgainChangesNothing : Prop :=
  ∀ (s t : State) (fuel : Nat), step s = .next t → t.run = .ioWait → hostRun (fuel + 1) [] t = (.returned .ioWait, t)

/-- R175, R185: it does not matter whether inputs come before a run or after it has suspended. If a run suspends and a further
run with more inputs returns, then one run given all the inputs up front returns the same result and leaves the same machine. -/
def Obligations.InputsMayComeLate : Prop :=
  ∀ (k j : Nat) (s t u : State) (inputs : List Word) (r : RunResult), s.live →
    runLoop k s = (some .ioWait, t) →
    runLoop j { t with inQ := t.inQ ++ inputs } = (some r, u) →
    runLoop (k + j) { s with inQ := s.inQ ++ inputs } = (some r, u)

/-- R216: a faulted machine stays faulted with its record, and memory and both registers as they are, under every host operation
but `reset`; `step`, `run` and a fork show the same record. -/
def Obligations.FaultLastsUntilReset : Prop :=
  ∀ s : State, s.run = .faulted →
    (∀ c, c ≠ HostCall.reset → (hostCall c s).2.run = .faulted ∧ (hostCall c s).2.fault = s.fault ∧
      (hostCall c s).2.mem = s.mem ∧ (hostCall c s).2.ptr = s.ptr ∧ (hostCall c s).2.rb = s.rb) ∧
    (hostCall .step s).1 = .stepped (.fault s.fault) ∧
    (∀ fuel inputs, s.accepts inputs = true → (hostCall (.run fuel inputs) s).1 = .ran (.returned (.fault s.fault))) ∧
    (hostCall .fork s).1 = .forked s ∧
    s.hostReset.run = .ready ∧ s.hostReset.fault = none

/-- R181, R182: `peek_memory` gives the cell, or 0 beyond the last address, and `halted` is true exactly in `Halted`; neither
changes the machine. -/
def Obligations.PeekAndHaltedOnlyLook : Prop :=
  ∀ (a : Nat) (s : State),
    (s.params.memSize = none → peekMemory a s = s.mem.read a) ∧
    (∀ n, s.params.memSize = some n → (a < n → peekMemory a s = s.mem.read a) ∧ (n ≤ a → peekMemory a s = 0)) ∧
    (haltedQuery s = true ↔ s.run = .halted) ∧
    (hostCall (.peekMemory a) s).2 = s ∧ (hostCall .halted s).2 = s

/-- R243, R244: a fork is a full copy, image included, and the original is unchanged; so the same host operations give the same
replies and the same machine on both. -/
def Obligations.ForkIsAFullCopy : Prop :=
  ∀ s : State, ∃ copy, hostCall .fork s = (.forked copy, s) ∧
    ∀ calls, hostReplies calls copy = hostReplies calls s ∧ hostCalls calls copy = hostCalls calls s

/-! ### Texts -/

/-- R96, R97: a text is a program exactly when it is a comma-separated line of such tokens, each in the range of the word model,
and the program is their values in order; any other text creates no machine. -/
def Obligations.ProgramTextGrammar : Prop :=
  ∀ (p : Params) (text : List Char),
    (∀ P : List Word, parseProgram p text = some P ↔
      ∃ ts : List TokenText, ts ≠ [] ∧ (∀ t ∈ ts, t.ok) ∧ text = [','].intercalate (ts.map TokenText.chars) ∧
        P = ts.map TokenText.value ∧ ∀ v ∈ P, wordOk p v = true) ∧
    (parseProgram p text = none → loadText p text = none)

/-- R99: the expansions of the pseudo-instructions; `mov` to an Immediate operand is refused, as R100 says of the add. -/
def Obligations.PseudoInstructionsExpand : Prop :=
  ∀ (ls : Labels) (t s d : AsmOperand) (a b : Word), t.raw ls = some a → s.raw ls = some b →
    (AsmItem.cells ls (.jmp t) = some [5 + 100 + 1000 * (t.mode.toDigit : Int), 1, a]) ∧
    (∀ c : Word, d.raw ls = some c → d.mode ≠ .immediate →
      AsmItem.cells ls (.mov s d) = some [1 + 100 * (s.mode.toDigit : Int) + 10000 * (d.mode.toDigit : Int) + 1000, b, 0, c]) ∧
    (d.mode = .immediate → AsmItem.cells ls (.mov s d) = none) ∧
    (AsmItem.cells ls .nop = some [1106, 1, 0])

/-- R99: the cells of `nop` do nothing but move `ptr` past them. -/
def Obligations.NopOnlyAdvances : Prop :=
  ∀ s : State, s.params = Params.default → s.live → 0 ≤ s.ptr →
    s.mem.read s.ptr.toNat = 1106 → s.mem.read (s.ptr.toNat + 1) = 1 →
    step s = .next { s with ptr := s.ptr + 3, run := .running }
end

