-- ==== Sys2Proof/Laws/State.lean ====
section
/-! SUPPORT. One lemma per field per named update of the state, each true by rfl. -/

namespace Sys2Proof.Machine

variable (s : State)

@[simp] theorem State.store_params (d : Nat) (v : Word) : (s.store d v).params = s.params := rfl
@[simp] theorem State.store_mem (d : Nat) (v : Word) : (s.store d v).mem = s.mem.write d v := rfl
@[simp] theorem State.store_ptr (d : Nat) (v : Word) : (s.store d v).ptr = s.ptr := rfl
@[simp] theorem State.store_rb (d : Nat) (v : Word) : (s.store d v).rb = s.rb := rfl
@[simp] theorem State.store_inQ (d : Nat) (v : Word) : (s.store d v).inQ = s.inQ := rfl
@[simp] theorem State.store_outQ (d : Nat) (v : Word) : (s.store d v).outQ = s.outQ := rfl
@[simp] theorem State.store_run (d : Nat) (v : Word) : (s.store d v).run = s.run := rfl
@[simp] theorem State.store_fault (d : Nat) (v : Word) : (s.store d v).fault = s.fault := rfl
@[simp] theorem State.store_image (d : Nat) (v : Word) : (s.store d v).image = s.image := rfl

@[simp] theorem State.setRb_params (v : Word) : (s.setRb v).params = s.params := rfl
@[simp] theorem State.setRb_mem (v : Word) : (s.setRb v).mem = s.mem := rfl
@[simp] theorem State.setRb_ptr (v : Word) : (s.setRb v).ptr = s.ptr := rfl
@[simp] theorem State.setRb_rb (v : Word) : (s.setRb v).rb = v := rfl
@[simp] theorem State.setRb_inQ (v : Word) : (s.setRb v).inQ = s.inQ := rfl
@[simp] theorem State.setRb_outQ (v : Word) : (s.setRb v).outQ = s.outQ := rfl
@[simp] theorem State.setRb_run (v : Word) : (s.setRb v).run = s.run := rfl
@[simp] theorem State.setRb_fault (v : Word) : (s.setRb v).fault = s.fault := rfl
@[simp] theorem State.setRb_image (v : Word) : (s.setRb v).image = s.image := rfl

@[simp] theorem State.emit_params (v : Word) : (s.emit v).params = s.params := rfl
@[simp] theorem State.emit_mem (v : Word) : (s.emit v).mem = s.mem := rfl
@[simp] theorem State.emit_ptr (v : Word) : (s.emit v).ptr = s.ptr := rfl
@[simp] theorem State.emit_rb (v : Word) : (s.emit v).rb = s.rb := rfl
@[simp] theorem State.emit_inQ (v : Word) : (s.emit v).inQ = s.inQ := rfl
@[simp] theorem State.emit_outQ (v : Word) : (s.emit v).outQ = s.outQ ++ [v] := rfl
@[simp] theorem State.emit_run (v : Word) : (s.emit v).run = s.run := rfl
@[simp] theorem State.emit_fault (v : Word) : (s.emit v).fault = s.fault := rfl
@[simp] theorem State.emit_image (v : Word) : (s.emit v).image = s.image := rfl

@[simp] theorem State.setInQ_params (q : List Word) : (s.setInQ q).params = s.params := rfl
@[simp] theorem State.setInQ_mem (q : List Word) : (s.setInQ q).mem = s.mem := rfl
@[simp] theorem State.setInQ_ptr (q : List Word) : (s.setInQ q).ptr = s.ptr := rfl
@[simp] theorem State.setInQ_rb (q : List Word) : (s.setInQ q).rb = s.rb := rfl
@[simp] theorem State.setInQ_inQ (q : List Word) : (s.setInQ q).inQ = q := rfl
@[simp] theorem State.setInQ_outQ (q : List Word) : (s.setInQ q).outQ = s.outQ := rfl
@[simp] theorem State.setInQ_run (q : List Word) : (s.setInQ q).run = s.run := rfl
@[simp] theorem State.setInQ_fault (q : List Word) : (s.setInQ q).fault = s.fault := rfl
@[simp] theorem State.setInQ_image (q : List Word) : (s.setInQ q).image = s.image := rfl

@[simp] theorem State.advance_params (np : Word) : (s.advance np).params = s.params := rfl
@[simp] theorem State.advance_mem (np : Word) : (s.advance np).mem = s.mem := rfl
@[simp] theorem State.advance_ptr (np : Word) : (s.advance np).ptr = np := rfl
@[simp] theorem State.advance_rb (np : Word) : (s.advance np).rb = s.rb := rfl
@[simp] theorem State.advance_inQ (np : Word) : (s.advance np).inQ = s.inQ := rfl
@[simp] theorem State.advance_outQ (np : Word) : (s.advance np).outQ = s.outQ := rfl
@[simp] theorem State.advance_run (np : Word) : (s.advance np).run = .running := rfl
@[simp] theorem State.advance_fault (np : Word) : (s.advance np).fault = s.fault := rfl
@[simp] theorem State.advance_image (np : Word) : (s.advance np).image = s.image := rfl

@[simp] theorem State.halt_params : s.halt.params = s.params := rfl
@[simp] theorem State.halt_mem : s.halt.mem = s.mem := rfl
@[simp] theorem State.halt_ptr : s.halt.ptr = s.ptr := rfl
@[simp] theorem State.halt_rb : s.halt.rb = s.rb := rfl
@[simp] theorem State.halt_inQ : s.halt.inQ = s.inQ := rfl
@[simp] theorem State.halt_outQ : s.halt.outQ = s.outQ := rfl
@[simp] theorem State.halt_run : s.halt.run = .halted := rfl
@[simp] theorem State.halt_fault : s.halt.fault = s.fault := rfl
@[simp] theorem State.halt_image : s.halt.image = s.image := rfl

@[simp] theorem State.suspend_params : s.suspend.params = s.params := rfl
@[simp] theorem State.suspend_mem : s.suspend.mem = s.mem := rfl
@[simp] theorem State.suspend_ptr : s.suspend.ptr = s.ptr := rfl
@[simp] theorem State.suspend_rb : s.suspend.rb = s.rb := rfl
@[simp] theorem State.suspend_inQ : s.suspend.inQ = s.inQ := rfl
@[simp] theorem State.suspend_outQ : s.suspend.outQ = s.outQ := rfl
@[simp] theorem State.suspend_run : s.suspend.run = .ioWait := rfl
@[simp] theorem State.suspend_fault : s.suspend.fault = s.fault := rfl
@[simp] theorem State.suspend_image : s.suspend.image = s.image := rfl

@[simp] theorem State.takeFault_params (r : Raise) : (s.takeFault r).params = s.params := rfl
@[simp] theorem State.takeFault_mem (r : Raise) : (s.takeFault r).mem = s.mem := rfl
@[simp] theorem State.takeFault_ptr (r : Raise) : (s.takeFault r).ptr = s.ptr := rfl
@[simp] theorem State.takeFault_rb (r : Raise) : (s.takeFault r).rb = s.rb := rfl
@[simp] theorem State.takeFault_inQ (r : Raise) : (s.takeFault r).inQ = s.inQ := rfl
@[simp] theorem State.takeFault_outQ (r : Raise) : (s.takeFault r).outQ = s.outQ := rfl
@[simp] theorem State.takeFault_run (r : Raise) : (s.takeFault r).run = .faulted := rfl
@[simp] theorem State.takeFault_fault (r : Raise) : (s.takeFault r).fault = some ⟨r.kind, s.ptr, s.currentWord, r.param, r.value⟩ := rfl
@[simp] theorem State.takeFault_image (r : Raise) : (s.takeFault r).image = s.image := rfl

@[simp] theorem State.withInputs_params (vs : List Word) : (s.withInputs vs).params = s.params := rfl
@[simp] theorem State.withInputs_mem (vs : List Word) : (s.withInputs vs).mem = s.mem := rfl
@[simp] theorem State.withInputs_ptr (vs : List Word) : (s.withInputs vs).ptr = s.ptr := rfl
@[simp] theorem State.withInputs_rb (vs : List Word) : (s.withInputs vs).rb = s.rb := rfl
@[simp] theorem State.withInputs_inQ (vs : List Word) : (s.withInputs vs).inQ = s.inQ ++ vs := rfl
@[simp] theorem State.withInputs_outQ (vs : List Word) : (s.withInputs vs).outQ = s.outQ := rfl
@[simp] theorem State.withInputs_run (vs : List Word) : (s.withInputs vs).run = s.run := rfl
@[simp] theorem State.withInputs_fault (vs : List Word) : (s.withInputs vs).fault = s.fault := rfl
@[simp] theorem State.withInputs_image (vs : List Word) : (s.withInputs vs).image = s.image := rfl

end Sys2Proof.Machine
end

