-- ==== Sys2Proof/Laws/Checks.lean ====
section
/-! SUPPORT. The phases of a step against the declarative checks of Machine/Priority.lean: one lemma per shared operation that
says everything it can do. -/

namespace Sys2Proof.Machine

@[simp] theorem Checked.bind_ok {α β : Type} (a : α) (f : α → Checked β) : ((.ok a : Checked α) >>= f) = f a := rfl

@[simp] theorem Checked.bind_error {α β : Type} (r : Raise) (f : α → Checked β) :
    ((.error r : Checked α) >>= f) = .error r := rfl

@[simp] theorem firstFault_nil : firstFault [] = none := rfl
@[simp] theorem firstFault_none (cs : List (Option Raise)) : firstFault (none :: cs) = firstFault cs := rfl
@[simp] theorem firstFault_some (r : Raise) (cs : List (Option Raise)) : firstFault (some r :: cs) = some r := rfl

/-- No fault applies exactly when no check fails. -/
theorem firstFault_eq_none {cs : List (Option Raise)} : firstFault cs = none ↔ ∀ c ∈ cs, c = none := by
  induction cs with
  | nil => simp
  | cons c cs ih => cases c <;> simp [ih]

@[simp] theorem firstFault_cons_eq_none {c : Option Raise} {cs : List (Option Raise)} :
    firstFault (c :: cs) = none ↔ c = none ∧ firstFault cs = none := by
  cases c <;> simp

/-- The reported fault is one of the checks. -/
theorem firstFault_mem {cs : List (Option Raise)} {r : Raise} (h : firstFault cs = some r) : some r ∈ cs := by
  induction cs with
  | nil => simp at h
  | cons c cs ih =>
    cases c with
    | none => simp [ih (by simpa using h)]
    | some r' => simp at h; simp [h]

/-- A phase that yields `a` unless the check `c` fails. -/
def checked {α : Type} (c : Option Raise) (a : α) : Checked α :=
  match c with
  | none => .ok a
  | some r => .error r

@[simp] theorem checked_none {α : Type} (a : α) : checked none a = .ok a := rfl
@[simp] theorem checked_some {α : Type} (r : Raise) (a : α) : checked (some r) a = .error r := rfl

theorem checked_eq_ok {α : Type} {c : Option Raise} {a b : α} : checked c a = .ok b ↔ c = none ∧ a = b := by
  cases c <;> simp

theorem checked_eq_error {α : Type} {c : Option Raise} {a : α} {r : Raise} : checked c a = .error r ↔ c = some r := by
  cases c <;> simp

/-- Two phases in sequence check in sequence. -/
theorem checked_then {α β : Type} (c : Option Raise) (a : α) (d : α → Option Raise) (b : α → β) :
    (checked c a >>= fun x => checked (d x) (b x)) = checked (firstFault [c, d a]) (b a) := by
  cases c with
  | none => simp only [checked_none, Checked.bind_ok, firstFault_none]; cases d a <;> rfl
  | some r => rfl

theorem finish_checked (s t : State) (c : Option Raise) :
    finish s (checked c t) = .next (match c with | none => t | some r => s.takeFault r) := by
  cases c <;> rfl

theorem checkWord_eq (s : State) (i : Option Nat) (v : Word) :
    checkWord s.params i v = checked (s.wordFault i v) v := by
  unfold checkWord State.wordFault; split <;> rfl

theorem checkAddr_eq (s : State) (i : Option Nat) (a : Word) :
    checkAddr s.params i a = checked (s.addrFault i a) a.toNat := by
  unfold checkAddr State.addrFault addrOk
  rcases s.params.memSize with _ | n
  · by_cases h : a < 0
    · simp [h, not_le.2 h]
    · simp [h, not_lt.1 h]
  · by_cases h : a < 0
    · simp [h, not_le.2 h]
    · by_cases h' : (n : Int) ≤ a
      · simp [h, h', not_lt.2 h']
      · simp [h, h', not_lt.1 h, not_le.1 h']

theorem memRead_eq (s : State) (i : Option Nat) (a : Word) :
    memRead s i a = checked (s.addrFault i a) (s.mem.read a.toNat) := by
  unfold memRead; rw [checkAddr_eq]; cases s.addrFault i a <;> rfl

theorem rawParam_eq (i : Nat) (s : State) :
    rawParam i s =
      checked (firstFault [s.wordFault (some i) (s.ptr + i), s.addrFault (some i) (s.ptr + i)]) (s.raw i) := by
  unfold rawParam
  simp only [checkWord_eq, memRead_eq, State.raw]
  exact checked_then _ _ _ fun (a : Word) => s.mem.read a.toNat

theorem readOperand_eq (i : Nat) (m : Mode) (s : State) :
    readOperand i m (s.raw i) s = checked (s.effFault i m) (s.operand i m) := by
  cases m with
  | position => exact memRead_eq s (some i) (s.raw i)
  | immediate => rfl
  | relative =>
    simp only [readOperand, checkWord_eq, memRead_eq, State.effFault, State.operand, State.effAddr]
    exact checked_then _ _ _ fun (a : Word) => s.mem.read a.toNat

/-- A read parameter gives its operand unless one of its checks fails, the first in the order of R214 point 6. -/
theorem readParam_eq (i : Nat) (m : Mode) (s : State) :
    readParam i m s = checked (s.paramFault i m) (s.operand i m) := by
  unfold readParam State.paramFault
  rw [rawParam_eq]
  cases s.wordFault (some i) (s.ptr + i) with
  | some r => rfl
  | none =>
    cases s.addrFault (some i) (s.ptr + i) with
    | some r => rfl
    | none => simp only [firstFault_none, firstFault_nil, checked_none, Checked.bind_ok, readOperand_eq]
              cases s.effFault i m <;> rfl

/-- The destination mode of a write parameter that is not in Immediate mode is its mode. -/
def DestMode.mode : DestMode → Mode
  | .position => .position
  | .relative => .relative

theorem writeAddress_eq (j : Nat) (m : DestMode) (s : State) :
    writeAddress j m (s.raw j) s = checked (s.effFault j (DestMode.mode m)) (s.effAddr j (DestMode.mode m)).toNat := by
  cases m with
  | position => exact checkAddr_eq s (some j) (s.raw j)
  | relative =>
    simp only [writeAddress, checkWord_eq, checkAddr_eq, State.effFault, State.effAddr, DestMode.mode]
    exact checked_then _ _ _ Int.toNat

/-- A write parameter gives its effective address unless one of its checks fails. -/
theorem writeParam_eq (j : Nat) (m : DestMode) (s : State) :
    writeParam j m s = checked (s.paramFault j (DestMode.mode m)) (s.effAddr j (DestMode.mode m)).toNat := by
  unfold writeParam State.paramFault
  rw [rawParam_eq]
  cases s.wordFault (some j) (s.ptr + j) with
  | some r => rfl
  | none =>
    cases s.addrFault (some j) (s.ptr + j) with
    | some r => rfl
    | none => simp only [firstFault_none, firstFault_nil, checked_none, Checked.bind_ok, writeAddress_eq]
              cases s.effFault j (DestMode.mode m) <;> rfl

theorem nextPtr_eq (n : Nat) (s : State) : nextPtr n s = checked (s.advanceFault n) (s.ptr + n) :=
  checkWord_eq s none (s.ptr + n)

theorem destMode_immediate (j : Nat) :
    destMode j .immediate = .error ⟨.invalidWriteTarget, some j, (j : Int)⟩ := rfl

theorem destMode_ok {j : Nat} {m : Mode} (h : m ≠ .immediate) :
    ∃ d, destMode j m = .ok d ∧ DestMode.mode d = m := by
  cases m with
  | position => exact ⟨.position, rfl, rfl⟩
  | immediate => exact absurd rfl h
  | relative => exact ⟨.relative, rfl, rfl⟩

theorem resolveF1W_eq {m1 : Mode} (h : m1 ≠ .immediate) (s : State) :
    resolveF1W m1 s = checked (s.paramFault 1 m1) (s.effAddr 1 m1).toNat := by
  obtain ⟨d, hd, rfl⟩ := destMode_ok (j := 1) h
  simp only [resolveF1W, hd, Checked.bind_ok, writeParam_eq]

theorem resolveF2RR_eq (m1 m2 : Mode) (s : State) :
    resolveF2RR m1 m2 s =
      checked (firstFault [s.paramFault 1 m1, s.paramFault 2 m2]) ⟨s.operand 1 m1, s.operand 2 m2⟩ := by
  simp only [resolveF2RR, readParam_eq]
  cases s.paramFault 1 m1 <;> cases s.paramFault 2 m2 <;> rfl

theorem resolveF3RRW_eq (m1 m2 : Mode) {m3 : Mode} (h : m3 ≠ .immediate) (s : State) :
    resolveF3RRW m1 m2 m3 s =
      checked (firstFault [s.paramFault 1 m1, s.paramFault 2 m2, s.paramFault 3 m3])
        ⟨s.operand 1 m1, s.operand 2 m2, (s.effAddr 3 m3).toNat⟩ := by
  obtain ⟨d, hd, rfl⟩ := destMode_ok (j := 3) h
  simp only [resolveF3RRW, hd, Checked.bind_ok, readParam_eq, writeParam_eq]
  cases s.paramFault 1 m1 <;> cases s.paramFault 2 m2 <;> cases s.paramFault 3 (DestMode.mode d) <;> rfl

/-- The fetch gives the cell at `ptr` unless its address check fails. -/
theorem fetchWord_eq (s : State) : fetchWord s = checked (s.addrFault none s.ptr) (s.mem.read s.ptr.toNat) :=
  memRead_eq s none s.ptr

theorem wordFault_eq_none {s : State} {i : Option Nat} {v : Word} : s.wordFault i v = none ↔ wordOk s.params v = true := by
  unfold State.wordFault; split <;> simp_all

theorem addrFault_eq_none {s : State} {i : Option Nat} {a : Word} : s.addrFault i a = none ↔ addrOk s.params a = true := by
  unfold State.addrFault; split <;> simp_all

end Sys2Proof.Machine
end

