-- ==== Sys2Proof/Laws/PerInstr.lean ====
section
/-! SUPPORT. Statements about every instruction as syntax, one lemma per constructor. -/

namespace Sys2Proof.Laws.RoundTrip

/-- The word of a well-formed instruction decodes to it under either setting of `EXTRA_DIGITS` (30_encoding.md R92, R93). -/
def Statement (i : Instr) : Prop :=
  i.wellFormed = true → ∀ x, decode x (encode i) = .ok i

theorem add (m1 m2 m3 : Mode) : Statement (.add m1 m2 m3) := by
  intro h x; cases m1 <;> cases m2 <;> cases m3 <;> cases x <;> first | rfl | cases h

theorem mul (m1 m2 m3 : Mode) : Statement (.mul m1 m2 m3) := by
  intro h x; cases m1 <;> cases m2 <;> cases m3 <;> cases x <;> first | rfl | cases h

theorem input (m1 : Mode) : Statement (.input m1) := by
  intro h x; cases m1 <;> cases x <;> first | rfl | cases h

theorem output (m1 : Mode) : Statement (.output m1) := by
  intro _ x; cases m1 <;> cases x <;> rfl

theorem jumpIfTrue (m1 m2 : Mode) : Statement (.jumpIfTrue m1 m2) := by
  intro _ x; cases m1 <;> cases m2 <;> cases x <;> rfl

theorem jumpIfFalse (m1 m2 : Mode) : Statement (.jumpIfFalse m1 m2) := by
  intro _ x; cases m1 <;> cases m2 <;> cases x <;> rfl

theorem lessThan (m1 m2 m3 : Mode) : Statement (.lessThan m1 m2 m3) := by
  intro h x; cases m1 <;> cases m2 <;> cases m3 <;> cases x <;> first | rfl | cases h

theorem equals (m1 m2 m3 : Mode) : Statement (.equals m1 m2 m3) := by
  intro h x; cases m1 <;> cases m2 <;> cases m3 <;> cases x <;> first | rfl | cases h

theorem adjustRelativeBase (m1 : Mode) : Statement (.adjustRelativeBase m1) := by
  intro _ x; cases m1 <;> cases x <;> rfl

theorem halt : Statement .halt := by
  intro _ x; cases x <;> rfl

end Sys2Proof.Laws.RoundTrip
end

