-- ==== Sys2Proof/Laws/Decode.lean ====
section
/-! SUPPORT. What each phase of decoding answers. -/

namespace Sys2Proof

@[simp] theorem Except.bind_ok_decode {α β : Type} (a : α) (f : α → Except DecodeFault β) :
    ((.ok a : Except DecodeFault α) >>= f) = f a := rfl

@[simp] theorem Except.bind_error_decode {α β : Type} (e : DecodeFault) (f : α → Except DecodeFault β) :
    ((.error e : Except DecodeFault α) >>= f) = .error e := rfl

@[simp] theorem Mode.ofDigit_toDigit (m : Mode) : Mode.ofDigit m.toDigit = some m := by cases m <;> rfl

theorem Mode.ofDigit_eq_some {d : Nat} {m : Mode} : Mode.ofDigit d = some m ↔ d = m.toDigit := by
  constructor
  · intro h
    unfold Mode.ofDigit at h
    split at h <;> first | (cases h; rfl) | cases h
  · rintro rfl; exact Mode.ofDigit_toDigit m

theorem Mode.ofDigit_eq_none {d : Nat} : Mode.ofDigit d = none ↔ 3 ≤ d := by
  match d with
  | 0 => decide
  | 1 => decide
  | 2 => decide
  | d + 3 => simp [Mode.ofDigit]

theorem Mode.toDigit_le (m : Mode) : m.toDigit ≤ 2 := by cases m <;> decide

theorem digit_lt (w k : Nat) : digit w k < 10 := Nat.mod_lt _ (by decide)

theorem decodeMode_eq_ok {w i : Nat} {m : Mode} : decodeMode w i = .ok m ↔ digit w (i + 1) = m.toDigit := by
  unfold decodeMode
  cases h : Mode.ofDigit (digit w (i + 1)) with
  | some m' => rw [Mode.ofDigit_eq_some.1 h]; cases m <;> cases m' <;> simp [Mode.toDigit]
  | none => have := Mode.ofDigit_eq_none.1 h; have := m.toDigit_le; simp; omega

theorem decodeMode_eq_error {w i : Nat} {f : DecodeFault} :
    decodeMode w i = .error f ↔ 3 ≤ digit w (i + 1) ∧ f = .invalidMode i (digit w (i + 1)) := by
  unfold decodeMode
  cases h : Mode.ofDigit (digit w (i + 1)) with
  | some m => have := m.toDigit_le; rw [Mode.ofDigit_eq_some.1 h]; simp; omega
  | none => simp [Mode.ofDigit_eq_none.1 h, eq_comm]

theorem checkExtra_eq_ok {x : ExtraDigits} {w n : Nat} {u : Unit} :
    checkExtra x w n = .ok u ↔ (x = .fault → w / 10 ^ (n + 2) = 0) := by
  unfold checkExtra; cases x <;> simp

theorem checkExtra_eq_error {x : ExtraDigits} {w n : Nat} {f : DecodeFault} :
    checkExtra x w n = .error f ↔ (x = .fault ∧ w / 10 ^ (n + 2) ≠ 0) ∧ f = .extraDigits := by
  unfold checkExtra; cases x <;> simp; split <;> simp_all [eq_comm]

theorem checkWriteTarget_eq_ok {j : Nat} {m : Mode} {u : Unit} : checkWriteTarget j m = .ok u ↔ m ≠ .immediate := by
  cases m <;> simp [checkWriteTarget, Mode.toDest]

theorem checkWriteTarget_eq_error {j : Nat} {m : Mode} {f : DecodeFault} :
    checkWriteTarget j m = .error f ↔ m = .immediate ∧ f = .invalidWriteTarget j := by
  cases m <;> simp [checkWriteTarget, Mode.toDest, eq_comm]

/-- A negative word is an unknown opcode (R81). -/
theorem decode_negative (x : ExtraDigits) {w : Word} (h : w < 0) : decode x w = .error .unknownOpcode := by
  cases w with
  | ofNat n => exact absurd h (by simp)
  | negSucc n => rfl

/-- A non-negative word decodes by its digits. -/
theorem decode_nonneg (x : ExtraDigits) {w : Word} (h : 0 ≤ w) : decode x w = decodeNat x w.toNat := by
  cases w with
  | ofNat n => rfl
  | negSucc n => exact absurd h (by simp)

/-- A phase of decoding and what follows it succeed when both do. -/
theorem decode_bind_eq_ok {α β : Type} {c : Except DecodeFault α} {f : α → Except DecodeFault β} {b : β} :
    (c >>= f) = .ok b ↔ ∃ a, c = .ok a ∧ f a = .ok b := by
  cases c <;> simp

/-- A phase of decoding and what follows it fail when the first does, or it passes and the rest fails. -/
theorem decode_bind_eq_error {α β : Type} {c : Except DecodeFault α} {f : α → Except DecodeFault β} {e : DecodeFault} :
    (c >>= f) = .error e ↔ c = .error e ∨ ∃ a, c = .ok a ∧ f a = .error e := by
  cases c <;> simp

theorem decodeF0_eq_ok {x : ExtraDigits} {w : Nat} {i j : Instr} :
    decodeF0 x w i = .ok j ↔ (x = .fault → w / 10 ^ 2 = 0) ∧ j = i := by
  unfold decodeF0
  rw [decode_bind_eq_ok]
  simp [checkExtra_eq_ok, eq_comm (a := i)]

theorem decodeF1R_eq_ok {x : ExtraDigits} {w : Nat} {mk : Mode → Instr} {j : Instr} :
    decodeF1R x w mk = .ok j ↔ ∃ m1, digit w 2 = m1.toDigit ∧ (x = .fault → w / 10 ^ 3 = 0) ∧ j = mk m1 := by
  simp [decodeF1R, decode_bind_eq_ok, checkExtra_eq_ok, decodeMode_eq_ok, eq_comm (a := mk _)]

theorem decodeF1W_eq_ok {x : ExtraDigits} {w : Nat} {mk : Mode → Instr} {j : Instr} :
    decodeF1W x w mk = .ok j ↔
      ∃ m1, digit w 2 = m1.toDigit ∧ (x = .fault → w / 10 ^ 3 = 0) ∧ m1 ≠ .immediate ∧ j = mk m1 := by
  simp [decodeF1W, decode_bind_eq_ok, checkExtra_eq_ok, checkWriteTarget_eq_ok, decodeMode_eq_ok, eq_comm (a := mk _)]

theorem decodeF2RR_eq_ok {x : ExtraDigits} {w : Nat} {mk : Mode → Mode → Instr} {j : Instr} :
    decodeF2RR x w mk = .ok j ↔
      ∃ m1, digit w 2 = m1.toDigit ∧ ∃ m2, digit w 3 = m2.toDigit ∧ (x = .fault → w / 10 ^ 4 = 0) ∧ j = mk m1 m2 := by
  simp [decodeF2RR, decode_bind_eq_ok, checkExtra_eq_ok, decodeMode_eq_ok, eq_comm (a := mk _ _)]

theorem decodeF3RRW_eq_ok {x : ExtraDigits} {w : Nat} {mk : Mode → Mode → Mode → Instr} {j : Instr} :
    decodeF3RRW x w mk = .ok j ↔
      ∃ m1, digit w 2 = m1.toDigit ∧ ∃ m2, digit w 3 = m2.toDigit ∧ ∃ m3, digit w 4 = m3.toDigit ∧
        (x = .fault → w / 10 ^ 5 = 0) ∧ m3 ≠ .immediate ∧ j = mk m1 m2 m3 := by
  simp [decodeF3RRW, decode_bind_eq_ok, checkExtra_eq_ok, checkWriteTarget_eq_ok, decodeMode_eq_ok, eq_comm (a := mk _ _ _)]

/-- Decoding gives only well-formed instructions (R88). -/
theorem decode_wellFormed {x : ExtraDigits} {w : Word} {i : Instr} (h : decode x w = .ok i) : i.wellFormed = true := by
  rcases lt_or_ge w 0 with hn | hn
  · rw [decode_negative x hn] at h; cases h
  · rw [decode_nonneg x hn, decodeNat] at h
    split at h <;>
      simp only [decodeF0_eq_ok, decodeF1R_eq_ok, decodeF1W_eq_ok, decodeF2RR_eq_ok, decodeF3RRW_eq_ok, reduceCtorEq] at h
    case h_3 => obtain ⟨m1, -, -, hm, rfl⟩ := h; simpa [Instr.wellFormed, Instr.writeMode] using hm
    case h_1 | h_2 | h_7 | h_8 =>
      obtain ⟨m1, -, m2, -, m3, -, -, hm, rfl⟩ := h; simpa [Instr.wellFormed, Instr.writeMode] using hm
    case h_4 | h_9 => obtain ⟨m1, -, -, rfl⟩ := h; rfl
    case h_5 | h_6 => obtain ⟨m1, -, m2, -, -, rfl⟩ := h; rfl
    case h_10 => obtain ⟨-, rfl⟩ := h; rfl

end Sys2Proof
end

