-- ==== Sys2Proof/Laws/Meanings.lean ====
section
/-! SUPPORT. One lemma per shared execute phase: its outcome from the declarative checks. -/

namespace Sys2Proof.Machine

/-- The outcome of a step that started in `s`: `t`, or the fault that applies first, taken in `s`. -/
def settled (s : State) (c : Option Raise) (t : State) : Host.Outcome State Fault Refusal :=
  .next (match c with | none => t | some r => s.takeFault r)

theorem finish_checked_eq (s t : State) (c : Option Raise) : finish s (checked c t) = settled s c t := by
  cases c <;> rfl

@[simp] theorem settled_none (s t : State) : settled s none t = .next t := rfl
@[simp] theorem settled_some (s t : State) (r : Raise) : settled s (some r) t = .next (s.takeFault r) := rfl

theorem destMode_eq_error {j : Nat} {m : Mode} {r : Raise} (h : destMode j m = .error r) :
    m = .immediate ∧ r = ⟨.invalidWriteTarget, some j, (j : Int)⟩ := by
  cases m <;> simp_all [destMode, Mode.toDest]

/-- The F3RRW instructions, for a result `f` whose check is `c`. -/
theorem writeResult_eq (m1 m2 : Mode) {m3 : Mode} (h3 : m3 ≠ .immediate) (s : State) (f : Word → Word → Checked Word)
    (c : Option Raise) (r : Word) (hf : f (s.operand 1 m1) (s.operand 2 m2) = checked c r) :
    writeResult m1 m2 m3 f s =
      settled s (firstFault [s.paramFault 1 m1, s.paramFault 2 m2, s.paramFault 3 m3, c, s.advanceFault 4])
        ((s.store (s.effAddr 3 m3).toNat r).advance (s.ptr + 4)) := by
  rw [← finish_checked_eq]
  unfold writeResult
  rw [resolveF3RRW_eq m1 m2 h3]
  congr 1
  cases s.paramFault 1 m1 <;> cases s.paramFault 2 m2 <;> cases s.paramFault 3 m3 <;> try rfl
  simp only [firstFault_none, firstFault_nil, checked_none, Checked.bind_ok, hf, nextPtr_eq]
  cases c <;> cases s.advanceFault 4 <;> rfl

/-- An F3RRW instruction with an Immediate write operand. -/
theorem writeResult_immediate (m1 m2 : Mode) (s : State) (f : Word → Word → Checked Word) :
    writeResult m1 m2 .immediate f s = .next (s.takeFault ⟨.invalidWriteTarget, some 3, 3⟩) := rfl

theorem jumpWhen_eq (m1 m2 : Mode) (taken : Word → Bool) (s : State) :
    jumpWhen m1 m2 taken s =
      if taken (s.operand 1 m1) then
        settled s (firstFault [s.paramFault 1 m1, s.paramFault 2 m2]) (s.advance (s.operand 2 m2))
      else
        settled s (firstFault [s.paramFault 1 m1, s.paramFault 2 m2, s.advanceFault 3]) (s.advance (s.ptr + 3)) := by
  unfold jumpWhen
  rw [resolveF2RR_eq]
  simp only [nextPtr_eq]
  cases s.paramFault 1 m1 <;> cases s.paramFault 2 m2 <;> by_cases h : taken (s.operand 1 m1) = true <;>
    simp [h] <;> first | rfl | (cases s.advanceFault 3 <;> rfl)

theorem execAdd_eq (m1 m2 : Mode) {m3 : Mode} (h3 : m3 ≠ .immediate) (s : State) :
    execAdd m1 m2 m3 s =
      settled s (firstFault [s.paramFault 1 m1, s.paramFault 2 m2, s.paramFault 3 m3,
          s.wordFault none (s.operand 1 m1 + s.operand 2 m2), s.advanceFault 4])
        ((s.store (s.effAddr 3 m3).toNat (s.operand 1 m1 + s.operand 2 m2)).advance (s.ptr + 4)) :=
  writeResult_eq m1 m2 h3 s _ _ _ (checkWord_eq s none _)

theorem execMul_eq (m1 m2 : Mode) {m3 : Mode} (h3 : m3 ≠ .immediate) (s : State) :
    execMul m1 m2 m3 s =
      settled s (firstFault [s.paramFault 1 m1, s.paramFault 2 m2, s.paramFault 3 m3,
          s.wordFault none (s.operand 1 m1 * s.operand 2 m2), s.advanceFault 4])
        ((s.store (s.effAddr 3 m3).toNat (s.operand 1 m1 * s.operand 2 m2)).advance (s.ptr + 4)) :=
  writeResult_eq m1 m2 h3 s _ _ _ (checkWord_eq s none _)

theorem execLessThan_eq (m1 m2 : Mode) {m3 : Mode} (h3 : m3 ≠ .immediate) (s : State) :
    execLessThan m1 m2 m3 s =
      settled s (firstFault [s.paramFault 1 m1, s.paramFault 2 m2, s.paramFault 3 m3, none, s.advanceFault 4])
        ((s.store (s.effAddr 3 m3).toNat (boolWord (decide (s.operand 1 m1 < s.operand 2 m2)))).advance (s.ptr + 4)) :=
  writeResult_eq m1 m2 h3 s _ none _ rfl

theorem execEquals_eq (m1 m2 : Mode) {m3 : Mode} (h3 : m3 ≠ .immediate) (s : State) :
    execEquals m1 m2 m3 s =
      settled s (firstFault [s.paramFault 1 m1, s.paramFault 2 m2, s.paramFault 3 m3, none, s.advanceFault 4])
        ((s.store (s.effAddr 3 m3).toNat (boolWord (decide (s.operand 1 m1 = s.operand 2 m2)))).advance (s.ptr + 4)) :=
  writeResult_eq m1 m2 h3 s _ none _ rfl

theorem execInput_eq {m1 : Mode} (h1 : m1 ≠ .immediate) (s : State) :
    execInput m1 s =
      settled s (s.paramFault 1 m1)
        (match s.inQ with
        | [] => s.suspend
        | v :: q =>
          match s.advanceFault 2 with
          | none => ((s.setInQ q).store (s.effAddr 1 m1).toNat v).advance (s.ptr + 2)
          | some r => s.takeFault r) := by
  unfold execInput
  rw [resolveF1W_eq h1]
  cases s.paramFault 1 m1 with
  | some r => rfl
  | none =>
    simp only [checked_none, settled_none, nextPtr_eq]
    cases s.inQ with
    | nil => rfl
    | cons v q => simp only []; cases s.advanceFault 2 <;> rfl

theorem execInput_immediate (s : State) :
    execInput .immediate s = .next (s.takeFault ⟨.invalidWriteTarget, some 1, 1⟩) := rfl

/-- The `QueueOverflow` check of R131. -/
def State.outputFault (s : State) (v : Word) : Option Raise :=
  if s.params.outCap = some s.outQ.length then some ⟨.queueOverflow, none, v⟩ else none

theorem execOutput_eq (m1 : Mode) (s : State) :
    execOutput m1 s =
      settled s (firstFault [s.paramFault 1 m1, s.outputFault (s.operand 1 m1), s.advanceFault 2])
        ((s.emit (s.operand 1 m1)).advance (s.ptr + 2)) := by
  unfold execOutput
  simp only [readParam_eq, nextPtr_eq, checkOutput, State.outputFault]
  cases s.paramFault 1 m1 <;> split <;> cases s.advanceFault 2 <;> rfl

theorem execAdjustRelativeBase_eq (m1 : Mode) (s : State) :
    execAdjustRelativeBase m1 s =
      settled s (firstFault [s.paramFault 1 m1, s.wordFault none (s.rb + s.operand 1 m1), s.advanceFault 2])
        ((s.setRb (s.rb + s.operand 1 m1)).advance (s.ptr + 2)) := by
  unfold execAdjustRelativeBase
  simp only [readParam_eq, nextPtr_eq, checkWord_eq]
  cases s.paramFault 1 m1 with
  | some r => rfl
  | none =>
    simp only [checked_none, Checked.bind_ok, firstFault_none]
    cases s.wordFault none (s.rb + s.operand 1 m1) with
    | some r => rfl
    | none => cases s.advanceFault 2 <;> rfl

end Sys2Proof.Machine
end

