-- ==== Sys2Proof/Laws/Memory.lean ====
section
/-! SUPPORT. The laws of memory: read after write, and that every operation keeps the canonical form. -/

namespace Sys2Proof.Machine

@[simp] theorem Memory.read_nil (a : Nat) : Memory.read [] a = 0 := rfl

theorem Memory.read_cons (b : Nat) (w : Word) (m : Memory) (a : Nat) :
    Memory.read ((b, w) :: m) a = if a = b then w else Memory.read m a := rfl

/-- A cell below every listed address reads 0. -/
theorem Memory.read_of_below {m : Memory} {a : Nat} (h : ∀ c ∈ m, a < c.1) : m.read a = 0 := by
  induction m with
  | nil => rfl
  | cons c m ih =>
    have hc := h c (by simp)
    rw [Memory.read_cons, if_neg (by omega)]
    exact ih fun c hm => h c (by simp [hm])

/-- A write leaves every other cell alone. -/
theorem Memory.read_write_other (m : Memory) {a b : Nat} (v : Word) (h : b ≠ a) :
    (m.write a v).read b = m.read b := by
  induction m with
  | nil => unfold Memory.write; split <;> simp [Memory.read, h]
  | cons c m ih =>
    obtain ⟨k, w⟩ := c
    unfold Memory.write
    split_ifs <;> simp_all [Memory.read]

/-- Every entry of a written memory is the written one or an old one. -/
theorem Memory.mem_write {m : Memory} {a : Nat} {v : Word} {c : Nat × Word} (h : c ∈ m.write a v) :
    (c = (a, v) ∧ v ≠ 0) ∨ c ∈ m := by
  induction m with
  | nil => unfold Memory.write at h; split at h <;> simp_all
  | cons d m ih =>
    obtain ⟨k, w⟩ := d
    unfold Memory.write at h
    split_ifs at h <;> simp_all <;> grind

/-- A write keeps the canonical form. -/
theorem Memory.write_wf {m : Memory} (h : m.wf) (a : Nat) (v : Word) : (m.write a v).wf := by
  obtain ⟨hs, hz⟩ := h
  refine ⟨?_, fun c hc => ?_⟩
  · induction m with
    | nil => unfold Memory.write; split <;> simp
    | cons d m ih =>
      obtain ⟨k, w⟩ := d
      rw [List.pairwise_cons] at hs
      have ih := ih hs.2 fun c hc => hz c (by simp [hc])
      unfold Memory.write
      split_ifs with h1 h2 h3 h4
      · exact List.pairwise_cons.2 hs
      · exact List.pairwise_cons.2 ⟨fun c hc => by
          rcases List.mem_cons.1 hc with rfl | hc
          · exact h1
          · exact h1.trans (hs.1 c hc), List.pairwise_cons.2 hs⟩
      · exact hs.2
      · subst h3; exact List.pairwise_cons.2 hs
      · refine List.pairwise_cons.2 ⟨fun c hc => ?_, ih⟩
        rcases Memory.mem_write hc with ⟨rfl, -⟩ | hc
        · simp only; omega
        · exact hs.1 c hc
  · rcases Memory.mem_write hc with ⟨rfl, hv⟩ | hc
    · exact hv
    · exact hz c hc

/-- A read after a write to the same cell gives the value written, in a memory of canonical form. -/
theorem Memory.read_write_same {m : Memory} (h : m.wf) (a : Nat) (v : Word) : (m.write a v).read a = v := by
  obtain ⟨hs, -⟩ := h
  induction m with
  | nil => unfold Memory.write; split <;> simp_all [Memory.read]
  | cons d m ih =>
    obtain ⟨k, w⟩ := d
    rw [List.pairwise_cons] at hs
    unfold Memory.write
    split_ifs with h1 h2 h3 h4
    · subst h2
      exact Memory.read_of_below fun c hc => by
        rcases List.mem_cons.1 hc with rfl | hc
        · exact h1
        · exact h1.trans (hs.1 c hc)
    · simp [Memory.read]
    · subst h3 h4
      exact Memory.read_of_below fun c hc => hs.1 c hc
    · simp [Memory.read]
    · rw [Memory.read_cons, if_neg h3]
      exact ih hs.2

/-- Every address of a placed sequence lies in its range, and no placed entry is 0. -/
theorem Memory.mem_placed {a : Nat} {P : List Word} {c : Nat × Word} (h : c ∈ Memory.placed a P) :
    a ≤ c.1 ∧ c.1 < a + P.length ∧ c.2 ∈ P ∧ c.2 ≠ 0 := by
  induction P generalizing a with
  | nil => simp [Memory.placed] at h
  | cons v vs ih =>
    unfold Memory.placed at h
    split_ifs at h with hv
    · obtain ⟨h1, h2, h3, h4⟩ := ih h
      exact ⟨by omega, by simp only [List.length_cons]; omega, by simp [h3], h4⟩
    · rcases List.mem_cons.1 h with rfl | h
      · exact ⟨le_refl _, by simp, by simp, hv⟩
      · obtain ⟨h1, h2, h3, h4⟩ := ih h
        exact ⟨by omega, by simp only [List.length_cons]; omega, by simp [h3], h4⟩

/-- A placed sequence is in canonical form. -/
theorem Memory.placed_wf (a : Nat) (P : List Word) : (Memory.placed a P).wf := by
  refine ⟨?_, fun c hc => (Memory.mem_placed hc).2.2.2⟩
  induction P generalizing a with
  | nil => simp [Memory.placed]
  | cons v vs ih =>
    unfold Memory.placed
    split_ifs
    · exact ih _
    · exact List.pairwise_cons.2 ⟨fun c hc => (Memory.mem_placed hc).1, ih _⟩

theorem Memory.ofProgram_wf (P : List Word) : (Memory.ofProgram P).wf :=
  Memory.placed_wf 0 P

/-- What a placed sequence reads as: its values in its range, 0 elsewhere. -/
theorem Memory.read_placed (a b : Nat) (P : List Word) :
    (Memory.placed a P).read b = if b < a then 0 else P.getD (b - a) 0 := by
  induction P generalizing a with
  | nil => simp [Memory.placed]
  | cons v vs ih =>
    unfold Memory.placed
    by_cases hv : v = 0
    · rw [if_pos hv, ih]
      rcases lt_trichotomy b a with h | rfl | h
      · rw [if_pos (by omega), if_pos h]
      · simp [hv]
      · rw [if_neg (by omega), if_neg (by omega), show b - a = (b - (a + 1)) + 1 by omega]
        simp
    · rw [if_neg hv, Memory.read_cons, ih]
      rcases lt_trichotomy b a with h | rfl | h
      · rw [if_neg (by omega), if_pos (by omega), if_pos h]
      · simp
      · rw [if_neg (by omega), if_neg (by omega), if_neg (by omega), show b - a = (b - (a + 1)) + 1 by omega]
        simp

theorem Memory.read_ofProgram (P : List Word) (a : Nat) : (Memory.ofProgram P).read a = P.getD a 0 := by
  rw [Memory.ofProgram, Memory.read_placed]; simp

end Sys2Proof.Machine
end

