-- ==== Sys2Proof/Laws/Step.lean ====
section
/-! SUPPORT. What one instruction and one step can do, said once. -/

namespace Sys2Proof.Machine

/-- Everything an instruction can do to state `s` (R171): the five forms of completion, halt, suspension and fault. Values that
come from memory are named by the cell they come from. -/
inductive Effect (s : State) : State → Prop where
  | write (d : Word) (v : Word) (hd : addrOk s.params d = true) (hv : wordOk s.params v = true)
      (hp : wordOk s.params (s.ptr + 4) = true) : Effect s ((s.store d.toNat v).advance (s.ptr + 4))
  | input (d : Word) (v : Word) (q : List Word) (hd : addrOk s.params d = true) (hq : s.inQ = v :: q)
      (hp : wordOk s.params (s.ptr + 2) = true) : Effect s (((s.setInQ q).store d.toNat v).advance (s.ptr + 2))
  | output (a : Nat) (hq : s.params.outCap ≠ some s.outQ.length) (hp : wordOk s.params (s.ptr + 2) = true) :
      Effect s ((s.emit (s.mem.read a)).advance (s.ptr + 2))
  | jump (a : Nat) : Effect s (s.advance (s.mem.read a))
  | noJump (hp : wordOk s.params (s.ptr + 3) = true) : Effect s (s.advance (s.ptr + 3))
  | base (v : Word) (hv : wordOk s.params v = true) (hp : wordOk s.params (s.ptr + 2) = true) :
      Effect s ((s.setRb v).advance (s.ptr + 2))
  | halt : Effect s s.halt
  | suspend (hq : s.inQ = []) : Effect s s.suspend
  | fault (r : Raise) : Effect s (s.takeFault r)

/-- A read operand is the value of a cell. -/
theorem State.operand_cell (s : State) (i : Nat) (m : Mode) : ∃ a, s.operand i m = s.mem.read a := by
  cases m <;> exact ⟨_, rfl⟩

/-- A destination whose checks pass is an address. -/
theorem State.effAddr_ok {s : State} {i : Nat} {m : Mode} (hm : m ≠ .immediate) (h : s.paramFault i m = none) :
    addrOk s.params (s.effAddr i m) = true := by
  simp only [State.paramFault, firstFault_cons_eq_none] at h
  cases m with
  | position => exact addrFault_eq_none.1 h.2.2.1
  | immediate => exact absurd rfl hm
  | relative =>
    have h' := h.2.2.1
    simp only [State.effFault, firstFault_cons_eq_none] at h'
    exact addrFault_eq_none.1 h'.2.1

theorem boolWord_ok (p : Params) (b : Bool) : wordOk p (boolWord b) = true := by
  unfold wordOk; cases p.wordModel <;> cases b <;> rfl

/-- A settled outcome is a completion with every check passed, or a fault. -/
theorem settled_cases {s t u : State} {c : Option Raise} (h : settled s c t = .next u) :
    (c = none ∧ u = t) ∨ ∃ r, c = some r ∧ u = s.takeFault r := by
  cases c with
  | none => exact .inl ⟨rfl, by simpa [eq_comm] using h⟩
  | some r => exact .inr ⟨r, rfl, by simpa [eq_comm] using h⟩

/-- An F3RRW instruction writes its result, or faults. -/
theorem writeResult_effect {m1 m2 m3 : Mode} {s t : State} {f : Word → Word → Checked Word} {c : Option Raise} {r : Word}
    (hf : f (s.operand 1 m1) (s.operand 2 m2) = checked c r) (hr : c = none → wordOk s.params r = true)
    (h : writeResult m1 m2 m3 f s = .next t) : Effect s t := by
  by_cases h3 : m3 = .immediate
  · subst h3
    rw [writeResult_immediate] at h
    cases h
    exact .fault _
  · rw [writeResult_eq m1 m2 h3 s f c r hf] at h
    rcases settled_cases h with ⟨hc, rfl⟩ | ⟨r, -, rfl⟩
    · simp only [firstFault_cons_eq_none] at hc
      exact .write _ _ (State.effAddr_ok h3 hc.2.2.1) (hr hc.2.2.2.1) (wordFault_eq_none.1 hc.2.2.2.2.1)
    · exact .fault r

theorem jumpWhen_effect {m1 m2 : Mode} {s t : State} {p : Word → Bool} (h : jumpWhen m1 m2 p s = .next t) : Effect s t := by
  rw [jumpWhen_eq] at h
  split at h
  · rcases settled_cases h with ⟨-, rfl⟩ | ⟨r, -, rfl⟩
    · obtain ⟨a, ha⟩ := s.operand_cell 2 m2
      rw [ha]; exact .jump a
    · exact .fault r
  · rcases settled_cases h with ⟨hc, rfl⟩ | ⟨r, -, rfl⟩
    · simp only [firstFault_cons_eq_none] at hc
      exact .noJump (wordFault_eq_none.1 hc.2.2.1)
    · exact .fault r

/-- Every next state of an instruction is one of its effects. -/
theorem exec_effect {i : Instr} {s t : State} (h : exec i s = .next t) : Effect s t := by
  cases i with
  | add m1 m2 m3 =>
    simp only [exec, execAdd] at h
    exact writeResult_effect (h := h) (hf := checkWord_eq s none _) (hr := wordFault_eq_none.1)
  | mul m1 m2 m3 =>
    simp only [exec, execMul] at h
    exact writeResult_effect (h := h) (hf := checkWord_eq s none _) (hr := wordFault_eq_none.1)
  | lessThan m1 m2 m3 =>
    simp only [exec, execLessThan] at h
    exact writeResult_effect (h := h) (c := none) (hf := rfl) (hr := fun _ => boolWord_ok _ _)
  | equals m1 m2 m3 =>
    simp only [exec, execEquals] at h
    exact writeResult_effect (h := h) (c := none) (hf := rfl) (hr := fun _ => boolWord_ok _ _)
  | jumpIfTrue m1 m2 => exact jumpWhen_effect h
  | jumpIfFalse m1 m2 => exact jumpWhen_effect h
  | halt => cases h; exact .halt
  | input m1 =>
    by_cases h1 : m1 = .immediate
    · subst h1; cases h; exact .fault _
    · replace h : execInput m1 s = .next t := h
      rw [execInput_eq h1] at h
      rcases settled_cases h with ⟨hc, rfl⟩ | ⟨r, -, rfl⟩
      · cases hq : s.inQ with
        | nil => exact .suspend hq
        | cons v q =>
          cases ha : s.advanceFault 2 with
          | none => exact .input _ v q (State.effAddr_ok h1 hc) hq (wordFault_eq_none.1 ha)
          | some r => exact .fault r
      · exact .fault r
  | output m1 =>
    replace h : execOutput m1 s = .next t := h
    rw [execOutput_eq] at h
    rcases settled_cases h with ⟨hc, rfl⟩ | ⟨r, -, rfl⟩
    · simp only [firstFault_cons_eq_none, State.outputFault] at hc
      obtain ⟨a, ha⟩ := s.operand_cell 1 m1
      rw [ha]
      exact .output a (fun hq => by simp [hq] at hc) (wordFault_eq_none.1 hc.2.2.1)
    · exact .fault r
  | adjustRelativeBase m1 =>
    replace h : execAdjustRelativeBase m1 s = .next t := h
    rw [execAdjustRelativeBase_eq] at h
    rcases settled_cases h with ⟨hc, rfl⟩ | ⟨r, -, rfl⟩
    · simp only [firstFault_cons_eq_none] at hc
      exact .base _ (wordFault_eq_none.1 hc.2.1) (wordFault_eq_none.1 hc.2.2.1)
    · exact .fault r

/-- Every instruction answers a next state. -/
theorem exec_next (i : Instr) (s : State) : ∃ t, exec i s = .next t := by
  have hf : ∀ c : Checked State, ∃ t, finish s c = .next t := fun c => by cases c <;> exact ⟨_, rfl⟩
  cases i with
  | add m1 m2 m3 => exact hf _
  | mul m1 m2 m3 => exact hf _
  | lessThan m1 m2 m3 => exact hf _
  | equals m1 m2 m3 => exact hf _
  | jumpIfTrue m1 m2 => exact hf _
  | jumpIfFalse m1 m2 => exact hf _
  | output m1 => exact hf _
  | adjustRelativeBase m1 => exact hf _
  | halt => exact ⟨_, rfl⟩
  | input m1 =>
    simp only [exec, execInput]
    cases resolveF1W m1 s with
    | error r => exact ⟨_, rfl⟩
    | ok d => cases s.inQ with
      | nil => exact ⟨_, rfl⟩
      | cons v q => exact hf _

/-- What a step does in a state that executes. -/
theorem step_live {s : State} (h : s.run ≠ .halted ∧ s.run ≠ .faulted) :
    step s = match fetchDecode s with | .error r => .next (s.takeFault r) | .ok i => exec i s := by
  unfold step
  cases hr : s.run <;> first | rfl | simp_all

theorem step_halted {s : State} (h : s.run = .halted) : step s = .next s := by simp [step, h]
theorem step_faulted {s : State} (h : s.run = .faulted) : step s = .next s := by simp [step, h]

/-- Every next state of a step: the same state when terminal, a fault of fetch or decode, or an instruction's outcome. -/
theorem step_cases {s t : State} (h : step s = .next t) :
    ((s.run = .halted ∨ s.run = .faulted) ∧ t = s) ∨
    ((s.run ≠ .halted ∧ s.run ≠ .faulted) ∧
      ((∃ r, fetchDecode s = .error r ∧ t = s.takeFault r) ∨ ∃ i, fetchDecode s = .ok i ∧ exec i s = .next t)) := by
  by_cases hh : s.run = .halted
  · rw [step_halted hh] at h; cases h; exact .inl ⟨.inl hh, rfl⟩
  by_cases hf : s.run = .faulted
  · rw [step_faulted hf] at h; cases h; exact .inl ⟨.inr hf, rfl⟩
  refine .inr ⟨⟨hh, hf⟩, ?_⟩
  rw [step_live ⟨hh, hf⟩] at h
  cases hd : fetchDecode s with
  | error r => rw [hd] at h; cases h; exact .inl ⟨r, rfl, rfl⟩
  | ok i => rw [hd] at h; exact .inr ⟨i, rfl, h⟩

/-- Every step answers a next state (R171), the one `State.stepped` names. -/
theorem step_eq_stepped (s : State) : step s = .next s.stepped := by
  have h : ∃ t, step s = .next t := by
    by_cases hl : s.run ≠ .halted ∧ s.run ≠ .faulted
    · rw [step_live hl]
      cases fetchDecode s with
      | error r => exact ⟨_, rfl⟩
      | ok i => exact exec_next i s
    · by_cases hh : s.run = .halted
      · exact ⟨s, step_halted hh⟩
      · exact ⟨s, step_faulted (by simpa [hh] using hl)⟩
  obtain ⟨t, ht⟩ := h
  rw [State.stepped, ht]

/-- The effect of a step in a state that executes. -/
theorem step_effect {s t : State} (hl : s.run ≠ .halted ∧ s.run ≠ .faulted) (h : step s = .next t) : Effect s t := by
  rcases step_cases h with ⟨hr, -⟩ | ⟨-, ⟨r, -, rfl⟩ | ⟨i, -, h⟩⟩
  · exact absurd hr (by simp [hl])
  · exact .fault r
  · exact exec_effect h

/-- Fetch and decode succeed exactly when the word at `ptr` can be read and decodes. -/
theorem fetchDecode_eq_ok {s : State} {i : Instr} :
    fetchDecode s = .ok i ↔
      addrOk s.params s.ptr = true ∧ decode s.params.extraDigits (s.mem.read s.ptr.toNat) = .ok i := by
  unfold fetchDecode decodeFetched
  rw [fetchWord_eq]
  cases h : s.addrFault none s.ptr with
  | some r =>
    have : addrOk s.params s.ptr ≠ true := fun h' => by rw [addrFault_eq_none.2 h'] at h; cases h
    simp [this]
  | none =>
    simp only [checked_none, Checked.bind_ok, addrFault_eq_none.1 h, true_and]
    cases decode s.params.extraDigits (s.mem.read s.ptr.toNat) <;> simp

end Sys2Proof.Machine
end

