-- ==== Sys2Proof/Tests/Slice0.lean ====
section
/-! SUPPORT. Tests with expected values from spec/ (the vectors V-… and examples W… of 95_test_vectors.md, and the layouts of
30_encoding.md), and for every obligation with hypotheses a witness that meets them. -/

namespace Sys2Proof.Tests

open Sys2Proof.Machine

/-- The default machine loaded with `P`. -/
def machine (P : List Word) : State := State.loaded Params.default P

/-- The default parameters under `Signed64`. -/
def signed : Params := { Params.default with wordModel := .signed64 }

/-- The default parameters with 16 cells. -/
def cells16 : Params := { Params.default with memSize := some 16 }

/-- A machine with a relative base. -/
def withRb (rb : Word) (s : State) : State := { s with rb := rb }

/-- A machine with an input queue. -/
def withIn (q : List Word) (s : State) : State := { s with inQ := q }

/-- The record a step of `s` leaves. -/
def faultOf (s : State) : Option FaultRecord := s.stepped.fault

/-- The state an instruction leaves. -/
def ran (i : Instr) (s : State) : State :=
  match exec i s with
  | .next t => t
  | .fault _ => s
  | .refused _ => s

theorem exec_eq_ran (i : Instr) (s : State) : exec i s = .next (ran i s) := by
  obtain ⟨t, ht⟩ := exec_next i s
  rw [ran, ht]

/-! ### Well-formedness: each check refuses an ill-formed term (R88) -/

theorem test_wf_add : (Instr.add .position .position .immediate).wellFormed = false := by decide
theorem test_wf_mul : (Instr.mul .position .position .immediate).wellFormed = false := by decide
theorem test_wf_input : (Instr.input .immediate).wellFormed = false := by decide
theorem test_wf_lessThan : (Instr.lessThan .position .position .immediate).wellFormed = false := by decide
theorem test_wf_equals : (Instr.equals .position .position .immediate).wellFormed = false := by decide
theorem test_wf_accepts :
    (Instr.add .immediate .immediate .relative).wellFormed = true ∧ (Instr.output .immediate).wellFormed = true := by decide

/-! ### Decoding: words written out from `C B A o o` (R92, R101) -/

theorem test_decode_add : decode .fault 21001 = .ok (.add .position .immediate .relative) := by decide
theorem test_decode_mul : decode .fault 1202 = .ok (.mul .relative .immediate .position) := by decide
theorem test_decode_input : decode .fault 203 = .ok (.input .relative) := by decide
theorem test_decode_output : decode .fault 104 = .ok (.output .immediate) := by decide
theorem test_decode_jumpIfTrue : decode .fault 2105 = .ok (.jumpIfTrue .immediate .relative) := by decide
theorem test_decode_jumpIfFalse : decode .fault 1206 = .ok (.jumpIfFalse .relative .immediate) := by decide
theorem test_decode_lessThan : decode .fault 20107 = .ok (.lessThan .immediate .position .relative) := by decide
theorem test_decode_equals : decode .fault 2108 = .ok (.equals .immediate .relative .position) := by decide
theorem test_decode_adjustRelativeBase : decode .fault 209 = .ok (.adjustRelativeBase .relative) := by decide
theorem test_decode_halt : decode .fault 99 = .ok .halt ∧ decode .ignore 199 = .ok .halt := by decide
theorem test_decode_opcode_zero_and_ten :
    decode .fault 0 = .error .unknownOpcode ∧ decode .fault 10 = .error .unknownOpcode := by decide
theorem test_decode_negative : decode .fault (-1) = .error .unknownOpcode := by decide
theorem test_decode_lowest_bad_mode : decode .fault 10301 = .error (.invalidMode 1 3) := by decide
theorem test_decode_mode_before_write_target : decode .fault 31101 = .error (.invalidMode 3 3) := by decide
theorem test_decode_write_target : decode .fault 11101 = .error (.invalidWriteTarget 3) := by decide
theorem test_decode_extra_digits : decode .fault 11104 = .error .extraDigits ∧
    decode .ignore 11104 = .ok (.output .immediate) := by decide
theorem test_decode_unknown_before_extra : decode .fault 198 = .error .unknownOpcode := by decide
theorem test_encode : encode (.add .immediate .immediate .relative) = 21101 ∧ encode (.output .position) = 4 ∧
    encode .halt = 99 := by decide
theorem test_decodeTableWord : decodeTableWord 8 1101 = some (.add .immediate .immediate .position) := by decide
theorem test_withFetchWord_runs : (State.reset.withFetchWord 8 99).stepped.run = .halted := by decide

/-! ### One step of each instruction (95_test_vectors.md) -/

/-- V-ADD-5. -/
theorem test_add_relative :
    (withRb 10 (machine [22201, 0, 1, 2, 0, 0, 0, 0, 0, 0, 4, 6])).stepped.mem.read 12 = 10 := by decide
/-- V-ADD-10. -/
theorem test_add_overflow :
    faultOf (State.loaded signed [1101, 9223372036854775807, 1, 0]) =
      some ⟨.overflow, 0, some 1101, none, 9223372036854775808⟩ := by decide
/-- V-MUL-5. -/
theorem test_mul_wide : (machine [1102, 34915192, 34915192, 7]).stepped.mem.read 7 = 1219070632396864 := by decide
/-- V-MUL-8. -/
theorem test_mul_least_word :
    (State.loaded signed [1102, -4611686018427387904, 2, 0]).stepped.mem.read 0 = -9223372036854775808 := by decide
/-- V-IN-7. -/
theorem test_input_overwrites_itself :
    (withIn [9] (withRb (-5) (machine [203, 5]))).stepped.mem.read 0 = 9 := by decide
/-- V-PRI-2. -/
theorem test_input_target_before_queue :
    faultOf (machine [103, 0]) = some ⟨.invalidWriteTarget, 0, some 103, some 1, 1⟩ := by decide
/-- V-OUT-3. -/
theorem test_output_relative : (withRb 1 (machine [204, -1])).stepped.outQ = [204] := by decide
/-- V-OUT-5. -/
theorem test_output_full :
    faultOf { State.loaded { Params.default with outCap := some 1 } [104, 6] with outQ := [5] } =
      some ⟨.queueOverflow, 0, some 104, none, 6⟩ := by decide
/-- V-JT-4. -/
theorem test_jumpIfTrue_taken : (machine [5, 3, 4, 1, 7]).stepped.ptr = 7 := by decide
/-- V-JT-2. -/
theorem test_jumpIfTrue_not_taken : (machine [1105, 0, 9]).stepped.ptr = 3 := by decide
/-- V-JF-4. -/
theorem test_jumpIfFalse_taken : (withRb 3 (machine [2206, 0, 1])).stepped.ptr = 0 := by decide
/-- V-JF-2. -/
theorem test_jumpIfFalse_not_taken : (machine [1106, -1, 7]).stepped.ptr = 3 := by decide
/-- V-LT-3. -/
theorem test_lessThan_signed : (machine [1107, -1, 0, 10]).stepped.mem.read 10 = 1 := by decide
/-- V-LT-6. -/
theorem test_lessThan_itself : (machine [7, 0, 0, 0]).stepped.mem.read 0 = 0 := by decide
/-- V-EQ-5. -/
theorem test_equals_itself : (machine [8, 0, 0, 0]).stepped.mem.read 0 = 1 := by decide
/-- V-EQ-4. -/
theorem test_equals_signs : (machine [1108, 5, -5, 10]).stepped.mem.read 10 = 0 := by decide
/-- V-ARB-3. -/
theorem test_adjust_reads_old_base : (withRb 1 (machine [209, 2, 0, 10])).stepped.rb = 11 := by decide
/-- V-ARB-5. -/
theorem test_adjust_overflow :
    faultOf (withRb 9223372036854775807 (State.loaded signed [109, 1])) =
      some ⟨.overflow, 0, some 109, none, 9223372036854775808⟩ := by decide
/-- V-HLT-1. -/
theorem test_halt : (machine [99]).stepped.run = .halted ∧ (machine [99]).stepped.ptr = 0 := by decide
/-- V-DEC-9, V-DEC-4: the record and its views. -/
theorem test_record_views :
    (faultOf (machine [903, 0])).map (fun r => (r.code, r.opcode, r.param, r.value)) = some (2, some 3, some 1, 9) ∧
    (faultOf (machine [-1])).map (fun r => (r.code, r.opcode)) = some (1, none) := by decide
/-- V-PRI-6, V-ADD-8, V-ADD-13. -/
theorem test_address_faults :
    faultOf (machine [1, -1, -2, -3]) = some ⟨.negativeAddress, 0, some 1, some 1, -1⟩ ∧
    faultOf (machine [1, 0, 0, -1]) = some ⟨.negativeAddress, 0, some 1, some 3, -1⟩ ∧
    faultOf (State.loaded cells16 [1, 0, 0, 16]) = some ⟨.addressLimit, 0, some 1, some 3, 16⟩ := by decide
/-- V-OUT-6. -/
theorem test_address_overflow :
    faultOf (withRb 1 (State.loaded signed [204, 9223372036854775807])) =
      some ⟨.overflow, 0, some 204, some 1, 9223372036854775808⟩ := by decide

/-! ### The host -/

/-- V-HOST-7, V-HOST-6. -/
theorem test_peek : peekMemory 20 (State.loaded cells16 [99]) = 0 ∧ peekMemory 1000000 (machine [99]) = 0 := by decide
/-- V-HOST-8. -/
theorem test_push_refused :
    let s := State.loaded { Params.default with inCap := some 1 } [99]
    (pushInput 1 s).1 = true ∧ (pushInput 1 (pushInput 1 s).2).1 = false := by decide
/-- V-HOST-1. -/
theorem test_run_halted : (hostRun 5 [1] (machine [99]).stepped).2.inQ = [1] := by decide
/-- W10. -/
theorem test_wait_again : hostRun 1 [] (machine [3, 0, 99]).stepped = (.returned .ioWait, (machine [3, 0, 99]).stepped) := by
  decide

/-! ### Texts (W2, R97 to R100) -/

theorem test_parse : parseProgram Params.default ['+', '1', ',', '-', '2', ' ', ',', '0', '0', '7', '\n'] = some [1, -2, 7] := by
  decide
theorem test_parse_errors :
    parseProgram Params.default [' ', ' '] = none ∧ parseProgram Params.default ['1', ',', ',', '2'] = none ∧
    parseProgram Params.default ['1', ',', 'x'] = none := by decide
theorem test_assemble :
    assemble [⟨some ['x'], some (.instr .add [.immediate (.lit 3), .immediate (.lit 4), .relative false (.lit 5)])⟩,
      ⟨none, some (.jmp (.immediate (.label ['x'])))⟩] = some [21101, 3, 4, 5, 1105, 1, 0] := by decide
theorem test_assemble_refuses_write_immediate :
    assemble [⟨none, some (.instr .input [.immediate (.lit 3)])⟩] = none := by decide
theorem test_assembleText :
    assembleText ['m', 'o', 'v', ' ', '#', '7', ',', ' ', 'r', 'b', '-', '1', ' ', ';', 'c'] = some [21101, 7, 0, -1] := by
  decide

/-! ### Witnesses: states and operands that meet an obligation's hypotheses -/

/-- A concrete state's legality, for the witnesses. -/
theorem legal_machine_add : (machine [1101, 2, 97, 4]).Legal :=
  ⟨by decide, by decide, by decide, by decide, by decide, by decide, by decide, by decide, by decide, by decide, by decide⟩

/-- The state a faulting step leaves is legal. -/
theorem legal_faulted : (machine [98]).stepped.Legal :=
  ⟨by decide, by decide, by decide, by decide, by decide, by decide, by decide, by decide, by decide, by decide, by decide⟩

theorem test_witness_LoadAndResetInstallTheProgram :
    load Params.default [1, 0, 0] = some (machine [1, 0, 0]) := by decide

theorem test_witness_LoadAcceptsWhatFits :
    wordsLegal cells16 [99] ∧ load cells16 [99] ≠ none ∧ paramsAllowed cells16 ∧
    wordsLegal { cells16 with memSize := some 1 } [4, 0] ∧ load { cells16 with memSize := some 1 } [4, 0] = none := by decide

theorem test_witness_ResetRestoresTheLoadedMachine :
    load Params.default [99] = some (machine [99]) ∧ hostCalls [.pushInput 3, .step] (machine [99]) ≠ machine [99] := by decide

theorem test_witness_StepKeepsLegal :
    (machine [1101, 2, 97, 4]).Legal ∧ step (machine [1101, 2, 97, 4]) = .next (machine [1101, 2, 97, 4]).stepped :=
  ⟨legal_machine_add, step_eq_stepped _⟩

theorem test_witness_HostCallsKeepLegal : (machine [98]).stepped.Legal ∧ (machine [1101, 2, 97, 4]).Legal :=
  ⟨legal_faulted, legal_machine_add⟩

theorem test_witness_ReachableIsLegal : (hostCalls [.pushInput 3, .step] (machine [99])).reachable :=
  ⟨Params.default, [99], machine [99], [.pushInput 3, .step], by decide, by decide, rfl⟩

theorem test_witness_MemoryIsItsContents :
    let m := Memory.write (Memory.write [] 5 7) 5 0
    let m' : Memory := []
    m.wf ∧ m'.wf ∧ ∀ a, m.read a = m'.read a :=
  ⟨by decide, by decide, fun _ => rfl⟩

theorem test_witness_StepRunsTheDecodedInstruction :
    (machine [1101, 2, 97, 4]).live ∧ (machine [1101, 2, 97, 4]).fetches (.add .immediate .immediate .position) := by decide

theorem test_witness_TerminalStepChangesNothing :
    (machine [99]).stepped.run = .halted ∧ (machine [98]).stepped.run = .faulted := by decide

/-- Boundary values: -1; and 16 with 16 cells. -/
theorem test_witness_FetchOutsideMemoryFaults :
    (let s := { machine [99] with ptr := -1 }; s.live ∧ s.ptr < 0) ∧
    (let s := { State.loaded cells16 [99] with ptr := 16 }
     s.live ∧ s.params.memSize = some 16 ∧ ((16 : Nat) : Int) ≤ s.ptr ∧ 0 ≤ s.ptr) := by decide

theorem test_witness_DecodeFaultIsRecorded :
    (let s := machine [98]
     s.live ∧ addrOk s.params s.ptr = true ∧ decode s.params.extraDigits (s.mem.read s.ptr.toNat) = .error .unknownOpcode) ∧
    (let s := machine [903]
     s.live ∧ addrOk s.params s.ptr = true ∧ decode s.params.extraDigits (s.mem.read s.ptr.toNat) = .error (.invalidMode 1 9)) ∧
    (let s := machine [199]
     s.live ∧ addrOk s.params s.ptr = true ∧ decode s.params.extraDigits (s.mem.read s.ptr.toNat) = .error .extraDigits) ∧
    (let s := machine [103]
     s.live ∧ addrOk s.params s.ptr = true ∧
       decode s.params.extraDigits (s.mem.read s.ptr.toNat) = .error (.invalidWriteTarget 1)) := by decide

/-- A fault with a word that has an opcode, one whose word is negative, one without a word, and a suspension. -/
theorem test_witness_FailedStepChangesNothingElse :
    (∀ s : State, step s = .next s.stepped) ∧
    (let s := machine [1, -1]; s.live ∧ s.stepped.run = .faulted ∧ addrOk s.params s.ptr = true ∧ s.mem.read 0 = 1) ∧
    (let s := machine [-1]; s.live ∧ s.stepped.run = .faulted ∧ addrOk s.params s.ptr = true ∧ s.mem.read 0 = -1) ∧
    (let s := { machine [99] with ptr := -1 }; s.live ∧ s.stepped.run = .faulted ∧ addrOk s.params s.ptr = false) ∧
    (let s := machine [3, 0]; s.live ∧ s.stepped.run = .ioWait) :=
  ⟨step_eq_stepped, by decide, by decide, by decide, by decide⟩

theorem test_witness_RunStateTransitions :
    (∀ s : State, step s = .next s.stepped) ∧
    (machine [99]).stepped.run = .halted ∧ (machine [98]).stepped.run = .faulted ∧
    ((machine [99]).live ∧ (machine [99]).fetches .halt) ∧
    (let s := machine [3, 0]; s.live ∧ s.fetches (.input .position) ∧ s.paramFault 1 .position = none ∧ s.inQ = []) ∧
    load Params.default [99] = some (machine [99]) :=
  ⟨step_eq_stepped, by decide, by decide, by decide, by decide, by decide⟩

theorem test_witness_StepHasFourResults :
    (machine [99]).live ∧ (hostStep (machine [99])).1 = .halted ∧ (hostStep (machine [3])).1 = .ioWait ∧
    (hostStep (machine [104])).1 = .continued ∧
    (hostStep (machine [98])).1 = .fault (some ⟨.unknownOpcode, 0, some 98, none, 98⟩) := by decide

/-- A taken jump, a completion that advances, and a step that leaves `ptr`. -/
theorem test_witness_PtrAdvancesJumpsOrStays :
    (∀ s : State, step s = .next s.stepped) ∧
    (let s := machine [1105, 1, -5]
     s.live ∧ s.stepped.run = .running ∧ s.takenTarget (.jumpIfTrue .immediate .immediate) = some (-5)) ∧
    (let s := machine [1105, 0, 9]
     s.live ∧ s.stepped.run = .running ∧ s.takenTarget (.jumpIfTrue .immediate .immediate) = none) ∧
    (let s := machine [99]; s.live ∧ s.stepped.run ≠ .running) :=
  ⟨step_eq_stepped, by decide, by decide, by decide⟩

theorem test_witness_OnlyAdjustWritesRb :
    step (machine [109, 2000]) = .next (machine [109, 2000]).stepped ∧
    (machine [109, 2000]).stepped.rb ≠ (machine [109, 2000]).rb :=
  ⟨step_eq_stepped _, by decide⟩

theorem test_witness_OnlyTheDestinationCellChanges :
    step (machine [1101, 2, 97, 4]) = .next (machine [1101, 2, 97, 4]).stepped ∧
    (machine [1101, 2, 97, 4]).stepped.mem.read 4 ≠ (machine [1101, 2, 97, 4]).mem.read 4 :=
  ⟨step_eq_stepped _, by decide⟩

theorem test_witness_QueuesAreFifo :
    (∀ s : State, step s = .next s.stepped) ∧
    (let s := withIn [7, 8] (machine [3, 10]); s.stepped.inQ = [8] ∧ s.stepped.inQ ≠ s.inQ) ∧
    (machine [104, 6]).stepped.outQ = [6] ∧ (machine [99]).outQ = [] :=
  ⟨step_eq_stepped, by decide, by decide, by decide⟩

/-- A word that decodes (an add that stores 99), one that does not (an input of -1), and the other writing instructions. -/
theorem test_witness_StoredWordIsFetchedNext :
    (∀ s : State, step s = .next s.stepped) ∧
    (let s := machine [1101, 2, 97, 4]
     s.mem.wf ∧ s.live ∧ s.fetches (.add .immediate .immediate .position) ∧ s.stepped.run = .running ∧
     s.effAddr 3 .position = s.stepped.ptr ∧ s.storedValue (.add .immediate .immediate .position) = some 99 ∧
     decode s.params.extraDigits 99 = .ok .halt) ∧
    (let s := withIn [-1] (machine [3, 2])
     s.mem.wf ∧ s.live ∧ s.fetches (.input .position) ∧ s.stepped.run = .running ∧ s.effAddr 1 .position = s.stepped.ptr ∧
     s.storedValue (.input .position) = some (-1) ∧ decode s.params.extraDigits (-1) = .error .unknownOpcode) ∧
    (let s := machine [1107, 3, 5, 4]
     s.mem.wf ∧ s.live ∧ s.fetches (.lessThan .immediate .immediate .position) ∧ s.stepped.run = .running ∧
     s.effAddr 3 .position = s.stepped.ptr) :=
  ⟨step_eq_stepped, by decide, by decide, by decide⟩

/-- A cell that already holds a value, and a step of every kind of writing instruction. -/
theorem test_witness_WrittenCellsReadBack :
    (∀ s : State, step s = .next s.stepped) ∧ Memory.wf [(1, 5), (3, 7)] ∧
    (let s := machine [1102, -3, 4, 2]
     s.mem.wf ∧ s.live ∧ s.fetches (.mul .immediate .immediate .position) ∧ s.stepped.run = .running ∧
     (Instr.mul .immediate .immediate .position).writeMode = some .position) ∧
    (let s := withIn [-1] (machine [3, 2])
     s.mem.wf ∧ s.live ∧ s.fetches (.input .position) ∧ s.stepped.run = .running ∧
     (Instr.input .position).writeMode = some .position) ∧
    (let s := withRb 5 (machine [21108, 3, 3, 5])
     s.mem.wf ∧ s.live ∧ s.fetches (.equals .immediate .immediate .relative) ∧ s.stepped.run = .running ∧
     s.effAddr 3 .relative = 10) :=
  ⟨step_eq_stepped, by decide, by decide, by decide, by decide⟩

theorem test_witness_DefaultParametersRaiseCodesOneToFive :
    let s := machine [1, 0, 0, -1]
    s.params = Params.default ∧ s.live ∧ step s = .next s.stepped ∧ s.stepped.run = .faulted :=
  ⟨rfl, by decide, step_eq_stepped _, by decide⟩

theorem test_witness_ParametersOnlyAddFaults :
    let s := State.loaded { signed with memSize := some 16, outCap := some 1 } [104, 6]
    s.params.extraDigits = .fault ∧ step s = .next s.stepped ∧ s.stepped.run ≠ .faulted :=
  ⟨rfl, step_eq_stepped _, by decide⟩

theorem test_witness_ExtraDigitsWords : arityOf (11104 % 100) = some 1 ∧ 11104 % 10 ^ (1 + 2) = 104 := by decide

theorem test_witness_AssembledInstructionReadsBack :
    assembleInstr (.add .immediate .immediate .relative) [3, 4, 5] = some [21101, 3, 4, 5] := by decide

/-- An add that completes, and one whose checks raise. -/
theorem test_witness_AddRule :
    (let s := machine [1101, 2, 97, 4]
     firstFault [s.paramFault 1 .immediate, s.paramFault 2 .immediate, s.paramFault 3 .position,
       s.wordFault none (s.operand 1 .immediate + s.operand 2 .immediate), s.advanceFault 4] = none) ∧
    (let s := machine [1, 0, 0, -1]
     firstFault [s.paramFault 1 .position, s.paramFault 2 .position, s.paramFault 3 .position,
       s.wordFault none (s.operand 1 .position + s.operand 2 .position), s.advanceFault 4] =
         some ⟨.negativeAddress, some 3, -1⟩) := by decide

/-- A mul that completes with -2^63, and one that overflows at 2^63. -/
theorem test_witness_MulRule :
    (let s := State.loaded signed [1102, -4611686018427387904, 2, 0]
     firstFault [s.paramFault 1 .immediate, s.paramFault 2 .immediate, s.paramFault 3 .position,
       s.wordFault none (s.operand 1 .immediate * s.operand 2 .immediate), s.advanceFault 4] = none) ∧
    (let s := State.loaded signed [1102, 4611686018427387904, 2, 0]
     firstFault [s.paramFault 1 .immediate, s.paramFault 2 .immediate, s.paramFault 3 .position,
       s.wordFault none (s.operand 1 .immediate * s.operand 2 .immediate), s.advanceFault 4] =
         some ⟨.overflow, none, 9223372036854775808⟩) := by decide

/-- A less-than that completes, with `v1 = v2`, and one whose checks raise. -/
theorem test_witness_LessThanRule :
    (let s := machine [1107, 5, 5, 10]
     ¬ s.operand 1 .immediate < s.operand 2 .immediate ∧
     firstFault [s.paramFault 1 .immediate, s.paramFault 2 .immediate, s.paramFault 3 .position, s.advanceFault 4] = none) ∧
    (let s := State.loaded cells16 [1107, 5, 5, 16]
     firstFault [s.paramFault 1 .immediate, s.paramFault 2 .immediate, s.paramFault 3 .position, s.advanceFault 4] =
       some ⟨.addressLimit, some 3, 16⟩) := by decide

/-- An equals that completes, and one whose `ptr` advance overflows. -/
theorem test_witness_EqualsRule :
    (let s := machine [8, 0, 0, 0]
     firstFault [s.paramFault 1 .position, s.paramFault 2 .position, s.paramFault 3 .position, s.advanceFault 4] = none) ∧
    (let s := { State.loaded signed [8] with ptr := 9223372036854775804 }
     firstFault [s.paramFault 1 .position, s.paramFault 2 .position, s.paramFault 3 .position, s.advanceFault 4] =
       some ⟨.overflow, none, 9223372036854775808⟩) := by decide

/-- The four cases of input: its destination faults, it suspends, it completes, its `ptr` advance faults. -/
theorem test_witness_InputRule :
    (machine [3, -1]).paramFault 1 .position = some ⟨.negativeAddress, some 1, -1⟩ ∧
    ((machine [3, 0]).paramFault 1 .position = none ∧ (machine [3, 0]).inQ = []) ∧
    (let s := withIn [7] (machine [3, 0]); s.paramFault 1 .position = none ∧ s.inQ = 7 :: [] ∧ s.advanceFault 2 = none) ∧
    (let s := { State.loaded signed [] with ptr := 9223372036854775806, inQ := [7] }
     s.paramFault 1 .position = none ∧ s.inQ = 7 :: [] ∧ s.advanceFault 2 = some ⟨.overflow, none, 9223372036854775808⟩) := by
  decide

/-- An output that completes into the last place, and one on a full queue. -/
theorem test_witness_OutputRule :
    (let s := { State.loaded { Params.default with outCap := some 2 } [104, 6] with outQ := [5] }
     firstFault [s.paramFault 1 .immediate,
       (if s.params.outCap = some s.outQ.length then some ⟨.queueOverflow, none, s.operand 1 .immediate⟩ else none),
       s.advanceFault 2] = none) ∧
    (let s := { State.loaded { Params.default with outCap := some 1 } [104, 6] with outQ := [5] }
     firstFault [s.paramFault 1 .immediate,
       (if s.params.outCap = some s.outQ.length then some ⟨.queueOverflow, none, s.operand 1 .immediate⟩ else none),
       s.advanceFault 2] = some ⟨.queueOverflow, none, 6⟩) := by decide

/-- An operand fault; the jump taken; not taken; and not taken with the `ptr` advance out of range. -/
theorem test_witness_JumpIfTrueRule :
    (let s := machine [5, -1]; firstFault [s.paramFault 1 .position, s.paramFault 2 .position] =
       some ⟨.negativeAddress, some 1, -1⟩) ∧
    (let s := machine [1105, -1, 9]
     s.paramFault 1 .immediate = none ∧ s.paramFault 2 .immediate = none ∧ s.operand 1 .immediate ≠ 0) ∧
    (let s := machine [1105, 0, 9]
     s.paramFault 1 .immediate = none ∧ s.paramFault 2 .immediate = none ∧ s.operand 1 .immediate = 0 ∧
       s.advanceFault 3 = none) ∧
    (let s := { State.loaded signed [] with ptr := 9223372036854775805 }
     s.paramFault 1 .immediate = none ∧ s.paramFault 2 .immediate = none ∧ s.operand 1 .immediate = 0 ∧
       s.advanceFault 3 = some ⟨.overflow, none, 9223372036854775808⟩) := by decide

/-- An operand fault; the jump taken; not taken; and not taken with the `ptr` advance out of range. -/
theorem test_witness_JumpIfFalseRule :
    (let s := machine [6, 0, -1]; firstFault [s.paramFault 1 .position, s.paramFault 2 .position] =
       some ⟨.negativeAddress, some 2, -1⟩) ∧
    (let s := machine [1106, 0, 7]
     s.paramFault 1 .immediate = none ∧ s.paramFault 2 .immediate = none ∧ s.operand 1 .immediate = 0) ∧
    (let s := machine [1106, -1, 7]
     s.paramFault 1 .immediate = none ∧ s.paramFault 2 .immediate = none ∧ s.operand 1 .immediate ≠ 0 ∧
       s.advanceFault 3 = none) ∧
    (let s := { State.loaded signed [] with ptr := 9223372036854775805, mem := [(9223372036854775806, 1)] }
     s.paramFault 1 .immediate = none ∧ s.paramFault 2 .immediate = none ∧ s.operand 1 .immediate ≠ 0 ∧
       s.advanceFault 3 = some ⟨.overflow, none, 9223372036854775808⟩) := by decide

/-- A base that goes negative, and one that overflows. -/
theorem test_witness_AdjustRelativeBaseRule :
    (let s := withRb 5 (machine [109, -7])
     firstFault [s.paramFault 1 .immediate, s.wordFault none (s.rb + s.operand 1 .immediate), s.advanceFault 2] = none) ∧
    (let s := withRb 9223372036854775807 (State.loaded signed [109, 1])
     firstFault [s.paramFault 1 .immediate, s.wordFault none (s.rb + s.operand 1 .immediate), s.advanceFault 2] =
       some ⟨.overflow, none, 9223372036854775808⟩) := by decide

theorem test_witness_IllFormedInstructionFaults : (Instr.input .immediate).wellFormed = false := by decide

/-- Raw values 0 and -1, and the same with the base added. -/
theorem test_witness_ReadOperandByMode :
    (let s := withRb (-3) (machine [4, 3])
     s.params = Params.default ∧ 0 ≤ s.ptr ∧ s.mem.read (s.ptr + ((1 : Nat) : Int)).toNat = 3 ∧ (0 : Int) ≤ 3 ∧ 0 ≤ 3 + s.rb) ∧
    (let s := machine [4, -1]
     s.params = Params.default ∧ 0 ≤ s.ptr ∧ s.mem.read (s.ptr + ((1 : Nat) : Int)).toNat = -1 ∧ (-1 : Int) < 0 ∧
       -1 + s.rb < 0) := by decide

/-- Raw values 0 and -1, and the same with the base added. -/
theorem test_witness_WriteAddressByMode :
    (let s := withRb (-3) (machine [3, 3])
     s.params = Params.default ∧ 0 ≤ s.ptr ∧ s.mem.read (s.ptr + ((1 : Nat) : Int)).toNat = 3 ∧ (0 : Int) ≤ 3 ∧ 0 ≤ 3 + s.rb) ∧
    (let s := machine [3, -1]
     s.params = Params.default ∧ 0 ≤ s.ptr ∧ s.mem.read (s.ptr + ((1 : Nat) : Int)).toNat = -1 ∧ (-1 : Int) < 0 ∧
       -1 + s.rb < 0) := by decide

theorem test_witness_WritingInstructionsFrame :
    let s := machine [1101, 2, 97, 4]
    let i := Instr.add .immediate .immediate .position
    i ∈ [Instr.add .immediate .immediate .position, .mul .immediate .immediate .position,
      .lessThan .immediate .immediate .position, .equals .immediate .immediate .position] ∧
    exec i s = .next (ran i s) ∧ (∀ dm, Mode.position.toDest = some dm → writeParam 3 dm s ≠ .ok 5) ∧
    writeParam 3 .position s = .ok 4 ∧ (ran i s).mem.read 4 = 99 :=
  ⟨by decide, exec_eq_ran _ _, fun dm h => by cases h; decide, by decide, by decide⟩

theorem test_witness_InputFrame :
    (∀ s, exec (.input .position) s = .next (ran (.input .position) s)) ∧
    (ran (.input .position) (machine [3, 0])).run ≠ .running ∧
    writeParam 1 .position (withIn [7] (machine [3, 0])) = .ok 0 ∧
    (∀ dm, Mode.position.toDest = some dm → writeParam 1 dm (withIn [7] (machine [3, 0])) ≠ .ok 1) :=
  ⟨exec_eq_ran _, by decide, by decide, fun dm h => by cases h; decide⟩

theorem test_witness_NonWritingInstructionsFrame :
    let s := machine [104, 6]
    let i := Instr.output .immediate
    i ∈ [Instr.output .immediate, .jumpIfTrue .immediate .immediate, .jumpIfFalse .immediate .immediate,
      .adjustRelativeBase .immediate, .halt] ∧
    exec i s = .next (ran i s) ∧ i ≠ .adjustRelativeBase .immediate ∧ (ran i s).run ≠ .faulted :=
  ⟨by decide, exec_eq_ran _ _, by decide, by decide⟩

/-- Full, not a word, and accepted. -/
theorem test_witness_PushInputRule :
    (machine [1101, 2, 97, 4]).Legal ∧
    (let s := State.loaded { Params.default with inCap := some 0 } [99]; s.params.inCap = some s.inQ.length) ∧
    wordOk signed 9223372036854775808 = false ∧
    (let s := State.loaded { signed with inCap := some 1 } [99]
     s.params.inCap ≠ some s.inQ.length ∧ wordOk s.params 9223372036854775807 = true) :=
  ⟨legal_machine_add, by decide, by decide, by decide⟩

/-- A refusal for want of room, one for a value that is no word, and the accepted calls; the state of the first clause is legal. -/
theorem test_witness_RunAppendsThenSteps :
    (machine [1101, 2, 97, 4]).Legal ∧
    (let s := State.loaded { Params.default with inCap := some 1 } [99]
     s.params.inCap = some 1 ∧ 1 < s.inQ.length + [1, 2].length) ∧
    (∃ v ∈ [9223372036854775808], wordOk signed v = false) ∧
    (State.loaded { Params.default with inCap := some 1 } [99]).accepts [1, 2] = false ∧
    ((machine [99]).stepped.accepts [1] = true ∧ (machine [99]).stepped.run = .halted) ∧
    ((machine [98]).stepped.accepts [1] = true ∧ (machine [98]).stepped.run = .faulted) ∧
    (let s := machine [3, 0, 99]
     s.accepts [7] = true ∧ s.live ∧
       runLoop 2 { s with inQ := s.inQ ++ [7] } = (some .halted, (runLoop 2 { s with inQ := s.inQ ++ [7] }).2)) :=
  ⟨legal_machine_add, by decide, by decide, by decide, by decide, by decide, by decide⟩

theorem test_witness_RunReturnsAtTheFirstStop :
    (runLoop 2 (machine [104, 6, 99])).1 = some .halted ∧ (runLoop 2 (machine [104, 6, 3])).1 = some .ioWait ∧
    (runLoop 1 (machine [104, 6, 99])).1 = none := by decide

theorem test_witness_WaitingAgainChangesNothing :
    step (machine [3, 0]) = .next (machine [3, 0]).stepped ∧ (machine [3, 0]).stepped.run = .ioWait :=
  ⟨step_eq_stepped _, by decide⟩

/-- W7: `run([5])`, then `run([6])`. -/
theorem test_witness_InputsMayComeLate :
    let s := withIn [5] (machine [3, 11, 3, 12, 1, 11, 12, 13, 4, 13, 99])
    let t := (runLoop 2 s).2
    s.live ∧ (runLoop 2 s).1 = some .ioWait ∧ (runLoop 4 { t with inQ := t.inQ ++ [6] }).1 = some .halted ∧
    (runLoop 4 { t with inQ := t.inQ ++ [6] }).2.outQ = [11] := by decide

theorem test_witness_FaultLastsUntilReset :
    (machine [98]).stepped.run = .faulted ∧ HostCall.step ≠ HostCall.reset ∧ (machine [98]).stepped.accepts [1] = true := by
  decide

/-- No limit; the last cell; and the first address beyond it. -/
theorem test_witness_PeekAndHaltedOnlyLook :
    (machine [99]).params.memSize = none ∧ (State.loaded cells16 [99]).params.memSize = some 16 ∧ 15 < 16 ∧ 16 ≤ 16 := by
  decide

theorem test_witness_ProgramTextGrammar :
    let t : TokenText := ⟨[' '], some true, [0, 7], []⟩
    [t] ≠ [] ∧ (∀ u ∈ [t], u.ok) ∧ [','].intercalate ([t].map TokenText.chars) = [' ', '-', '0', '7'] ∧
    [-7] = [t].map TokenText.value ∧ parseProgram Params.default [' ', '-', '0', '7'] = some [-7] ∧
    parseProgram Params.default [] = none :=
  ⟨by decide, fun u hu => by simp only [List.mem_singleton] at hu; subst hu; exact ⟨by simp [isBlank], by simp, by simp⟩,
    by decide, by decide, by decide, by decide⟩

theorem test_witness_PseudoInstructionsExpand :
    (AsmOperand.immediate (.lit 9)).raw [] = some 9 ∧ (AsmOperand.relative true (.lit 1)).raw [] = some (-1) ∧
    (AsmOperand.relative true (.lit 1)).mode ≠ .immediate ∧ (AsmOperand.immediate (.lit 9)).mode = .immediate := by decide

/-- V-JF-5. -/
theorem test_witness_NopOnlyAdvances :
    let s := machine [1106, 1, 0]
    s.params = Params.default ∧ s.live ∧ 0 ≤ s.ptr ∧ s.mem.read s.ptr.toNat = 1106 ∧ s.mem.read (s.ptr.toNat + 1) = 1 := by
  decide

end Sys2Proof.Tests
end

section
/-! PROOFS. The parameters of R5 only refuse (R5, R6, R122): the checks of a state under the default parameters fail only where
the checks of the state itself fail, and the values and effects of an instruction do not depend on the parameters. -/

namespace Sys2Proof.Machine

/-- The same machine under the default parameters of R5. -/
def State.underDefaults (s : State) : State :=
  { s with params := Params.default }

section
variable {s : State}

@[simp] theorem State.underDefaults_params : s.underDefaults.params = Params.default := rfl
@[simp] theorem State.underDefaults_mem : s.underDefaults.mem = s.mem := rfl
@[simp] theorem State.underDefaults_ptr : s.underDefaults.ptr = s.ptr := rfl
@[simp] theorem State.underDefaults_rb : s.underDefaults.rb = s.rb := rfl
@[simp] theorem State.underDefaults_inQ : s.underDefaults.inQ = s.inQ := rfl
@[simp] theorem State.underDefaults_run : s.underDefaults.run = s.run := rfl

/-! ### Values and effects do not depend on the parameters -/

@[simp] theorem State.underDefaults_effAddr (i : Nat) (m : Mode) : s.underDefaults.effAddr i m = s.effAddr i m := by
  cases m <;> rfl

@[simp] theorem State.underDefaults_operand (i : Nat) (m : Mode) : s.underDefaults.operand i m = s.operand i m := by
  cases m <;> rfl

theorem State.underDefaults_store (d : Nat) (v : Word) : (s.store d v).underDefaults = s.underDefaults.store d v := rfl
theorem State.underDefaults_setRb (v : Word) : (s.setRb v).underDefaults = s.underDefaults.setRb v := rfl
theorem State.underDefaults_emit (v : Word) : (s.emit v).underDefaults = s.underDefaults.emit v := rfl
theorem State.underDefaults_setInQ (q : List Word) : (s.setInQ q).underDefaults = s.underDefaults.setInQ q := rfl
theorem State.underDefaults_advance (np : Word) : (s.advance np).underDefaults = s.underDefaults.advance np := rfl

/-! ### The checks under the default parameters -/

/-- `Unbounded`: every integer is a word. -/
@[simp] theorem State.underDefaults_wordFault (i : Option Nat) (v : Word) : s.underDefaults.wordFault i v = none := rfl

@[simp] theorem State.underDefaults_advanceFault (n : Nat) : s.underDefaults.advanceFault n = none := rfl

/-- `OUT_CAP = ∞`: no output is refused. -/
@[simp] theorem State.underDefaults_outputFault (v : Word) : s.underDefaults.outputFault v = none := rfl

/-- `MEM_SIZE = ∞`: every address of a finite memory is one. -/
theorem addrOk_default {p : Params} {a : Word} (h : addrOk p a = true) : addrOk Params.default a = true := by
  simp only [addrOk, Bool.and_eq_true] at h
  simpa [addrOk, Params.default] using h.1

theorem State.underDefaults_addrFault {i : Option Nat} {a : Word} (h : s.addrFault i a = none) :
    s.underDefaults.addrFault i a = none :=
  addrFault_eq_none.2 (addrOk_default (addrFault_eq_none.1 h))

theorem State.underDefaults_effFault {i : Nat} {m : Mode} (h : s.effFault i m = none) :
    s.underDefaults.effFault i m = none := by
  cases m with
  | position => exact State.underDefaults_addrFault h
  | immediate => rfl
  | relative =>
    simp only [State.effFault, firstFault_cons_eq_none] at h ⊢
    obtain ⟨-, haddr, -⟩ := h
    simpa using State.underDefaults_addrFault haddr

theorem State.underDefaults_paramFault {i : Nat} {m : Mode} (h : s.paramFault i m = none) :
    s.underDefaults.paramFault i m = none := by
  simp only [State.paramFault, firstFault_cons_eq_none] at h ⊢
  obtain ⟨-, hcell, heff, -⟩ := h
  exact ⟨rfl, State.underDefaults_addrFault hcell, State.underDefaults_effFault heff, rfl⟩

/-! ### The phases of a step -/

/-- A settled outcome that did not fault is the same outcome under checks that fail no more often. -/
theorem settled_underDefaults {t u : State} {c c' : Option Raise} (h : settled s c t = .next u) (hu : u.run ≠ .faulted)
    (hc : c = none → c' = none) : settled s.underDefaults c' t.underDefaults = .next u.underDefaults := by
  rcases settled_cases h with ⟨hnone, rfl⟩ | ⟨r, -, rfl⟩
  · rw [hc hnone, settled_none]
  · exact absurd rfl hu

/-- The F3RRW instructions, for a result `r` with check `c` whose computation under the default parameters, `f'`, has none. -/
theorem writeResult_underDefaults {m1 m2 m3 : Mode} {t : State} {f f' : Word → Word → Checked Word} {c : Option Raise}
    {r : Word} (hf : f (s.operand 1 m1) (s.operand 2 m2) = checked c r)
    (hf' : f' (s.operand 1 m1) (s.operand 2 m2) = .ok r)
    (h : writeResult m1 m2 m3 f s = .next t) (ht : t.run ≠ .faulted) :
    writeResult m1 m2 m3 f' s.underDefaults = .next t.underDefaults := by
  by_cases h3 : m3 = .immediate
  · subst h3
    rw [writeResult_immediate] at h
    cases h
    exact absurd rfl ht
  · rw [writeResult_eq m1 m2 h3 s f c r hf] at h
    rw [writeResult_eq m1 m2 h3 _ f' none r (by simpa using hf')]
    simp only [State.underDefaults_effAddr, State.underDefaults_ptr, ← State.underDefaults_store,
      ← State.underDefaults_advance]
    refine settled_underDefaults h ht fun hnone => ?_
    simp only [firstFault_cons_eq_none] at hnone
    obtain ⟨hp1, hp2, hp3, -⟩ := hnone
    simp [State.underDefaults_paramFault, hp1, hp2, hp3]

theorem jumpWhen_underDefaults {m1 m2 : Mode} {t : State} {taken : Word → Bool} (h : jumpWhen m1 m2 taken s = .next t)
    (ht : t.run ≠ .faulted) : jumpWhen m1 m2 taken s.underDefaults = .next t.underDefaults := by
  rw [jumpWhen_eq] at h ⊢
  simp only [State.underDefaults_operand, State.underDefaults_ptr, ← State.underDefaults_advance]
  split at h
  case isTrue htaken =>
    rw [if_pos htaken]
    refine settled_underDefaults h ht fun hnone => ?_
    simp only [firstFault_cons_eq_none] at hnone
    obtain ⟨hp1, hp2, -⟩ := hnone
    simp [State.underDefaults_paramFault, hp1, hp2]
  case isFalse htaken =>
    rw [if_neg htaken]
    refine settled_underDefaults h ht fun hnone => ?_
    simp only [firstFault_cons_eq_none] at hnone
    obtain ⟨hp1, hp2, -⟩ := hnone
    simp [State.underDefaults_paramFault, hp1, hp2]

theorem execInput_underDefaults {m1 : Mode} {t : State} (h : execInput m1 s = .next t) (ht : t.run ≠ .faulted) :
    execInput m1 s.underDefaults = .next t.underDefaults := by
  by_cases h1 : m1 = .immediate
  · subst h1
    rw [execInput_immediate] at h
    cases h
    exact absurd rfl ht
  · rw [execInput_eq h1] at h ⊢
    rcases settled_cases h with ⟨hparam, rfl⟩ | ⟨r, -, rfl⟩
    · rw [State.underDefaults_paramFault hparam, settled_none, State.underDefaults_inQ]
      cases hq : s.inQ with
      | nil => rfl
      | cons v q =>
        cases hadv : s.advanceFault 2 with
        | none =>
          simp only [State.underDefaults_advanceFault, State.underDefaults_effAddr, State.underDefaults_ptr,
            State.underDefaults_advance, State.underDefaults_store, State.underDefaults_setInQ]
        | some r => simp [hq, hadv] at ht
    · exact absurd rfl ht

theorem execOutput_underDefaults {m1 : Mode} {t : State} (h : execOutput m1 s = .next t) (ht : t.run ≠ .faulted) :
    execOutput m1 s.underDefaults = .next t.underDefaults := by
  rw [execOutput_eq] at h ⊢
  simp only [State.underDefaults_operand, State.underDefaults_ptr, ← State.underDefaults_emit, ← State.underDefaults_advance]
  refine settled_underDefaults h ht fun hnone => ?_
  simp only [firstFault_cons_eq_none] at hnone
  simp [State.underDefaults_paramFault, hnone.1]

theorem execAdjustRelativeBase_underDefaults {m1 : Mode} {t : State} (h : execAdjustRelativeBase m1 s = .next t)
    (ht : t.run ≠ .faulted) : execAdjustRelativeBase m1 s.underDefaults = .next t.underDefaults := by
  rw [execAdjustRelativeBase_eq] at h ⊢
  simp only [State.underDefaults_operand, State.underDefaults_ptr, State.underDefaults_rb, ← State.underDefaults_setRb,
    ← State.underDefaults_advance]
  refine settled_underDefaults h ht fun hnone => ?_
  simp only [firstFault_cons_eq_none] at hnone
  simp [State.underDefaults_paramFault, hnone.1]

/-- An instruction that does not fault does the same under the default parameters. -/
theorem exec_underDefaults {i : Instr} {t : State} (h : exec i s = .next t) (ht : t.run ≠ .faulted) :
    exec i s.underDefaults = .next t.underDefaults := by
  cases i with
  | add m1 m2 m3 =>
    simp only [exec, execAdd] at h ⊢
    exact writeResult_underDefaults (h := h) (hf := checkWord_eq s none _) (hf' := rfl) (ht := ht)
  | mul m1 m2 m3 =>
    simp only [exec, execMul] at h ⊢
    exact writeResult_underDefaults (h := h) (hf := checkWord_eq s none _) (hf' := rfl) (ht := ht)
  | lessThan m1 m2 m3 =>
    simp only [exec, execLessThan] at h ⊢
    exact writeResult_underDefaults (h := h) (c := none) (hf := rfl) (hf' := rfl) (ht := ht)
  | equals m1 m2 m3 =>
    simp only [exec, execEquals] at h ⊢
    exact writeResult_underDefaults (h := h) (c := none) (hf := rfl) (hf' := rfl) (ht := ht)
  | jumpIfTrue m1 m2 => exact jumpWhen_underDefaults h ht
  | jumpIfFalse m1 m2 => exact jumpWhen_underDefaults h ht
  | input m1 => exact execInput_underDefaults h ht
  | output m1 => exact execOutput_underDefaults h ht
  | adjustRelativeBase m1 => exact execAdjustRelativeBase_underDefaults h ht
  | halt => cases h; rfl

/-- With `EXTRA_DIGITS = Fault`, the instruction fetched is the one fetched under the default parameters. -/
theorem fetchDecode_underDefaults {i : Instr} (hx : s.params.extraDigits = .fault) (h : fetchDecode s = .ok i) :
    fetchDecode s.underDefaults = .ok i := by
  rw [fetchDecode_eq_ok] at h ⊢
  obtain ⟨haddr, hdecode⟩ := h
  rw [hx] at hdecode
  exact ⟨addrOk_default haddr, hdecode⟩

end

/-- Settles O23: a terminal machine keeps its state; otherwise the step did not fault, so it fetched an instruction, the default
machine fetches the same one, and its meaning passes every check that passed before. -/
theorem parametersOnlyAddFaults : Obligations.ParametersOnlyAddFaults := by
  intro s t hx h ht
  change step s.underDefaults = .next t.underDefaults
  rcases step_cases h with ⟨hrun, rfl⟩ | ⟨hlive, ⟨r, -, rfl⟩ | ⟨i, hfetch, hexec⟩⟩
  · exact hrun.elim (step_halted (s := t.underDefaults)) (step_faulted (s := t.underDefaults))
  · exact absurd rfl ht
  · rw [step_live (s := s.underDefaults) hlive, fetchDecode_underDefaults hx hfetch]
    exact exec_underDefaults hexec ht

end Sys2Proof.Machine
end

section
/-! PROOFS. The legal states (10_state.md R20, R29, R30; 20_memory.md R50): every update of the state keeps them, so every effect
of an instruction, every step and every host operation does. -/

namespace Sys2Proof.Machine

/-! ### Words, capacities and addresses -/

theorem wordOk_zero (p : Params) : wordOk p 0 = true :=
  boolWord_ok p false

theorem fits_zero (cap : Option Nat) : fits cap 0 = true := by
  cases cap <;> simp [fits]

theorem fits_of_le {cap : Option Nat} {m n : Nat} (hn : fits cap n = true) (hmn : m ≤ n) : fits cap m = true := by
  cases cap with
  | none => rfl
  | some c => simp only [fits, decide_eq_true_eq] at hn ⊢; omega

/-- A queue within its capacity and not full takes one more entry. -/
theorem fits_succ {cap : Option Nat} {n : Nat} (hn : fits cap n = true) (hfull : cap ≠ some n) : fits cap (n + 1) = true := by
  cases cap with
  | none => rfl
  | some c =>
    simp only [fits, decide_eq_true_eq, ne_eq, Option.some.injEq] at hn hfull ⊢
    omega

/-- The cell `n` exists exactly when the memory has room for `n + 1` cells. -/
theorem addrOk_natCast (p : Params) (n : Nat) : addrOk p (n : Int) = fits p.memSize (n + 1) := by
  unfold addrOk fits
  cases p.memSize with
  | none => simp
  | some k => simp

theorem addrOk_nonneg {p : Params} {a : Word} (h : addrOk p a = true) : 0 ≤ a := by
  simp only [addrOk, Bool.and_eq_true, decide_eq_true_eq] at h
  exact h.1

/-! ### Legal memories -/

theorem Memory.read_wordOk {p : Params} {m : Memory} (h : memoryLegal p m) (a : Nat) : wordOk p (m.read a) = true := by
  obtain ⟨-, hcells⟩ := h
  induction m with
  | nil => exact wordOk_zero p
  | cons c m ih =>
    rw [Memory.read_cons]
    split
    · exact (hcells c (by simp)).2
    · exact ih fun d hd => hcells d (by simp [hd])

theorem memoryLegal_write {p : Params} {m : Memory} {a v : Word} (h : memoryLegal p m) (ha : addrOk p a = true)
    (hv : wordOk p v = true) : memoryLegal p (m.write a.toNat v) := by
  obtain ⟨hwf, hcells⟩ := h
  refine ⟨Memory.write_wf hwf _ _, fun c hc => ?_⟩
  rcases Memory.mem_write hc with ⟨rfl, -⟩ | hc
  · rw [Int.toNat_of_nonneg (addrOk_nonneg ha)]
    exact ⟨ha, hv⟩
  · exact hcells c hc

theorem memoryLegal_ofProgram {p : Params} {P : List Word} (hfit : fits p.memSize P.length = true) (hP : wordsLegal p P) :
    memoryLegal p (Memory.ofProgram P) := by
  refine ⟨Memory.ofProgram_wf P, fun c hc => ?_⟩
  obtain ⟨-, hlt, hmem, -⟩ := Memory.mem_placed hc
  rw [addrOk_natCast]
  exact ⟨fits_of_le hfit (by omega), hP _ hmem⟩

/-! ### The updates of the state keep it legal -/

namespace State.Legal

variable {s : State}

theorem fault_none (h : s.Legal) (hrun : s.run ≠ .faulted) : s.fault = none := by
  have hfault := h.fault
  simpa [hrun] using hfault

theorem store (h : s.Legal) {d v : Word} (hd : addrOk s.params d = true) (hv : wordOk s.params v = true) :
    (s.store d.toNat v).Legal :=
  { h with mem := memoryLegal_write h.mem hd hv }

theorem setRb (h : s.Legal) {v : Word} (hv : wordOk s.params v = true) : (s.setRb v).Legal :=
  { h with rb := hv }

theorem emit (h : s.Legal) {v : Word} (hv : wordOk s.params v = true) (hfull : s.params.outCap ≠ some s.outQ.length) :
    (s.emit v).Legal :=
  { h with
    outQ := List.forall_mem_append.2 ⟨h.outQ, by simpa using hv⟩
    outCap := by simpa using fits_succ h.outCap hfull }

/-- Dropping the head of the input queue. -/
theorem setInQ_tail (h : s.Legal) {v : Word} {q : List Word} (hq : s.inQ = v :: q) : (s.setInQ q).Legal :=
  { h with
    inQ := (List.forall_mem_cons.1 (hq ▸ h.inQ)).2
    inCap := fits_of_le h.inCap (by simp [hq]) }

theorem advance (h : s.Legal) (hf : s.fault = none) {np : Word} (hp : wordOk s.params np = true) : (s.advance np).Legal :=
  { h with ptr := hp, fault := by simp [hf] }

theorem halt (h : s.Legal) (hf : s.fault = none) : s.halt.Legal :=
  { h with fault := by simp [hf] }

theorem suspend (h : s.Legal) (hf : s.fault = none) : s.suspend.Legal :=
  { h with fault := by simp [hf] }

theorem takeFault (h : s.Legal) (r : Raise) : (s.takeFault r).Legal :=
  { h with fault := by simp }

theorem withInputs (h : s.Legal) {vs : List Word} (hvs : s.accepts vs = true) : (s.withInputs vs).Legal := by
  simp only [State.accepts, Bool.and_eq_true, List.all_eq_true] at hvs
  obtain ⟨hfit, hwords⟩ := hvs
  exact { h with
    inQ := List.forall_mem_append.2 ⟨h.inQ, hwords⟩
    inCap := by simpa using hfit }

/-- Every effect of an instruction keeps the state legal. -/
theorem effect {t : State} (h : s.Legal) (hf : s.fault = none) (he : Effect s t) : t.Legal := by
  cases he with
  | write d v hd hv hp => exact (h.store hd hv).advance hf hp
  | input d v q hd hq hp =>
    have hv : wordOk s.params v = true := h.inQ v (by simp [hq])
    exact ((h.setInQ_tail hq).store hd hv).advance hf hp
  | output a hq hp => exact (h.emit (Memory.read_wordOk h.mem a) hq).advance hf hp
  | jump a => exact h.advance hf (Memory.read_wordOk h.mem a)
  | noJump hp => exact h.advance hf hp
  | base v hv hp => exact (h.setRb hv).advance hf hp
  | halt => exact h.halt hf
  | suspend hq => exact h.suspend hf
  | fault r => exact h.takeFault r

theorem step {t : State} (h : s.Legal) (hstep : Machine.step s = .next t) : t.Legal := by
  by_cases hlive : s.live
  · exact h.effect (h.fault_none hlive.2) (step_effect hlive hstep)
  · rcases step_cases hstep with ⟨-, rfl⟩ | ⟨hl, -⟩
    · exact h
    · exact absurd hl hlive

theorem stepped (h : s.Legal) : s.stepped.Legal :=
  h.step (step_eq_stepped s)

theorem popOutput (h : s.Legal) : (popOutput s).2.Legal := by
  unfold Machine.popOutput
  cases hq : s.outQ with
  | nil => exact h
  | cons v q =>
    exact { h with
      outQ := (List.forall_mem_cons.1 (hq ▸ h.outQ)).2
      outCap := fits_of_le h.outCap (by simp [hq]) }

theorem loaded {p : Params} {P : List Word} (hp : paramsAllowed p) (hfit : fits p.memSize P.length = true)
    (hP : wordsLegal p P) : (State.loaded p P).Legal where
  params := hp
  mem := memoryLegal_ofProgram hfit hP
  ptr := wordOk_zero p
  rb := wordOk_zero p
  inQ := List.forall_mem_nil _
  outQ := List.forall_mem_nil _
  image := hP
  inCap := fits_zero _
  outCap := fits_zero _
  memCap := hfit
  fault := by simp [State.loaded]

end State.Legal

end Sys2Proof.Machine
end

section
/-! PROOFS. What the host operations keep (50_execution_and_host.md R170 to R183; 70_reset_and_hazards.md R240 to R247): a property
that every step keeps is kept by the loop of `run`, and so by `run`. -/

namespace Sys2Proof.Machine

/-! ### Run keeps what every step keeps -/

section
variable {Q : State → Prop} (hstep : ∀ u : State, Q u → Q u.stepped)
include hstep

theorem runLoop_keeps (fuel : Nat) {s : State} (hs : Q s) : Q (runLoop fuel s).2 := by
  induction fuel generalizing s with
  | zero => exact hs
  | succ fuel ih =>
    unfold runLoop
    cases s.stepped.stepResult with
    | continued => exact ih (hstep s hs)
    | halted => exact hstep s hs
    | ioWait => exact hstep s hs
    | fault r => exact hstep s hs

theorem runAccepted_keeps (fuel : Nat) {s : State} (hs : Q s) : Q (runAccepted fuel s).2 := by
  have hloop := runLoop_keeps hstep fuel hs
  unfold runAccepted
  split
  · exact hs
  · exact hs
  all_goals split <;> simpa [*] using hloop

theorem hostRun_keeps (fuel : Nat) (inputs : List Word) {s : State} (hs : Q s)
    (hinputs : s.accepts inputs = true → Q (s.withInputs inputs)) : Q (hostRun fuel inputs s).2 := by
  unfold hostRun
  split
  case isTrue haccepts => exact runAccepted_keeps hstep fuel (hinputs haccepts)
  case isFalse => exact hs

end

/-- A property that every host operation keeps is kept by every sequence of them. -/
theorem hostCalls_keep {Q : State → Prop} (hcall : ∀ (c : HostCall) (u : State), Q u → Q (hostCall c u).2)
    (calls : List HostCall) {s : State} (hs : Q s) : Q (hostCalls calls s) := by
  induction calls generalizing s with
  | nil => exact hs
  | cons c cs ih => exact ih (hcall c s hs)

/-! ### The image and the parameters -/

theorem Effect.image_params {s t : State} (h : Effect s t) : t.image = s.image ∧ t.params = s.params := by
  cases h <;> exact ⟨rfl, rfl⟩

theorem State.stepped_image_params (s : State) : s.stepped.image = s.image ∧ s.stepped.params = s.params := by
  rcases step_cases (step_eq_stepped s) with ⟨-, hsame⟩ | ⟨hlive, -⟩
  · rw [hsame]
    exact ⟨rfl, rfl⟩
  · exact (step_effect hlive (step_eq_stepped s)).image_params

theorem hostRun_image_params (fuel : Nat) (inputs : List Word) (s : State) :
    (hostRun fuel inputs s).2.image = s.image ∧ (hostRun fuel inputs s).2.params = s.params := by
  refine hostRun_keeps (Q := fun u => u.image = s.image ∧ u.params = s.params) (fun u hu => ?_) fuel inputs ⟨rfl, rfl⟩
    fun _ => ⟨rfl, rfl⟩
  obtain ⟨himage, hparams⟩ := u.stepped_image_params
  exact ⟨himage.trans hu.1, hparams.trans hu.2⟩

/-! ### Load -/

/-- `load` answers exactly the machine loaded with a program that fits and whose values are words. -/
theorem load_eq_some {p : Params} {P : List Word} {s : State} :
    load p P = some s ↔ (fits p.memSize P.length = true ∧ wordsLegal p P) ∧ s = State.loaded p P := by
  simp [load, eq_comm (a := s)]

theorem State.loaded_installed (p : Params) (P : List Word) : (State.loaded p P).Installed p P where
  params := rfl
  mem := Memory.read_ofProgram P
  ptr := rfl
  rb := rfl
  inQ := rfl
  outQ := rfl
  run := rfl
  fault := rfl
  image := rfl

theorem State.Legal.of_load {p : Params} {P : List Word} {s : State} (hp : paramsAllowed p) (h : load p P = some s) :
    s.Legal := by
  obtain ⟨⟨hfit, hwords⟩, rfl⟩ := load_eq_some.1 h
  exact .loaded hp hfit hwords

/-! ### The statements about load and the host's operations -/

/-- Settles O5: each effect of an instruction is a composition of updates that keep the state legal. -/
theorem stepKeepsLegal : Obligations.StepKeepsLegal :=
  fun _ _ h hstep => h.step hstep

/-- Settles O6: the machine's own operations by the step, the queue operations by their own bounds, and the reset because the
kept image and parameters of a legal state are those of a legal load. -/
theorem hostCallsKeepLegal : Obligations.HostCallsKeepLegal := by
  intro c s h
  cases c with
  | step => exact h.stepped
  | run fuel inputs => exact hostRun_keeps (fun _ hu => hu.stepped) fuel inputs h h.withInputs
  | pushInput v =>
    simp only [hostCall, pushInput]
    split
    case isTrue haccepts => exact h.withInputs haccepts
    case isFalse => exact h
  | popOutput => exact h.popOutput
  | peekMemory a => exact h
  | halted => exact h
  | reset => exact .loaded h.params h.memCap h.image
  | fork => exact h

/-- Settles O1: load and the host's reset both give `State.loaded`, whose memory reads as the program. -/
theorem loadAndResetInstallTheProgram : Obligations.LoadAndResetInstallTheProgram := by
  refine ⟨fun p P s h => ?_, fun s => State.loaded_installed s.params s.image⟩
  obtain ⟨-, rfl⟩ := load_eq_some.1 h
  exact State.loaded_installed p P

/-- Settles O7, by induction on the sequence of host operations, from the machine as loaded. -/
theorem reachableIsLegal : Obligations.ReachableIsLegal := by
  rintro s ⟨p, P, s₀, calls, hp, hload, rfl⟩
  exact hostCalls_keep hostCallsKeepLegal calls (.of_load hp hload)

/-- Settles O20: no effect of an instruction touches the image or the parameters, so no step, no run and no other host operation
does. -/
theorem imageIsNeverWritten : Obligations.ImageIsNeverWritten := by
  intro c s
  cases c with
  | step => exact s.stepped_image_params
  | run fuel inputs => exact hostRun_image_params fuel inputs s
  | pushInput v => simp only [hostCall, pushInput]; split <;> exact ⟨rfl, rfl⟩
  | popOutput => simp only [hostCall, popOutput]; split <;> exact ⟨rfl, rfl⟩
  | peekMemory a => exact ⟨rfl, rfl⟩
  | halted => exact ⟨rfl, rfl⟩
  | reset => exact ⟨rfl, rfl⟩
  | fork => exact ⟨rfl, rfl⟩

/-- Settles O3: `State.reset` is the machine that `load` makes of the empty program, so it is legal as every loaded machine is. -/
theorem resetIsALegalLoadedMachine : Obligations.ResetIsALegalLoadedMachine := by
  have hload : load Params.default [] = some State.reset := rfl
  exact ⟨hload, .of_load (by decide) hload⟩

end Sys2Proof.Machine
end

section
/-! PROOFS. What each instruction writes (10_state.md R20, R25, R27, R29; 41_io.md R130, R131): `Effect` of Laws/Step.lean with the
instruction that has it, and from it one lemma per component of the state. -/

namespace Sys2Proof.Machine

/-! ### The destination of a write parameter -/

theorem State.destination_eq_ite {s : State} {j : Nat} {m : Mode} (hm : m ≠ .immediate) :
    s.destination j m = if s.paramFault j m = none then some (s.effAddr j m).toNat else none := by
  unfold State.destination
  cases m with
  | immediate => exact absurd rfl hm
  | position => cases s.paramFault j .position <;> rfl
  | relative => cases s.paramFault j .relative <;> rfl

theorem State.destination_mode {s : State} {j d : Nat} (dm : DestMode) :
    s.destination j (DestMode.mode dm) = some d ↔ writeParam j dm s = .ok d := by
  rw [State.destination_eq_ite (by cases dm <;> decide), writeParam_eq, checked_eq_ok]
  simp

/-- The address that Machine/Priority.lean names is the one that `writeParam`, which the meanings use, gives. -/
theorem State.destination_eq_some {s : State} {j : Nat} {m : Mode} {d : Nat} :
    s.destination j m = some d ↔ ∃ dm, m.toDest = some dm ∧ writeParam j dm s = .ok d := by
  cases m with
  | position => simpa [Mode.toDest, DestMode.mode] using State.destination_mode .position
  | immediate => simp [Mode.toDest, State.destination]
  | relative => simpa [Mode.toDest, DestMode.mode] using State.destination_mode .relative

theorem State.destination_of_paramFault {s : State} {j : Nat} {m : Mode} (hm : m ≠ .immediate) (h : s.paramFault j m = none) :
    s.destination j m = some (s.effAddr j m).toNat := by
  rw [State.destination_eq_ite hm, if_pos h]

/-- An instruction with a write operand is no jump. -/
theorem State.takenTarget_of_writeMode (s : State) {i : Instr} {m : Mode} (h : i.writeMode = some m) :
    s.takenTarget i = none := by
  cases i <;> first | rfl | cases h

/-! ### The effects of an instruction -/

/-- Everything that instruction `i` can do to state `s`. -/
inductive InstrEffect (s : State) (i : Instr) : State → Prop where
  | write {m : Mode} {d : Nat} (v : Word) (hi : i.writeMode = some m) (hd : s.destination i.arity m = some d) :
      InstrEffect s i ((s.store d v).advance (s.ptr + (i.length : Int)))
  | input {m1 : Mode} {d : Nat} {v : Word} {q : List Word} (hi : i = .input m1) (hd : s.destination 1 m1 = some d)
      (hq : s.inQ = v :: q) : InstrEffect s i (((s.setInQ q).store d v).advance (s.ptr + (i.length : Int)))
  | output {m1 : Mode} (hi : i = .output m1) :
      InstrEffect s i ((s.emit (s.operand 1 m1)).advance (s.ptr + (i.length : Int)))
  | jump {target : Word} (ht : s.takenTarget i = some target) : InstrEffect s i (s.advance target)
  | noJump (ht : s.takenTarget i = none) : InstrEffect s i (s.advance (s.ptr + (i.length : Int)))
  | base {m1 : Mode} (hi : i = .adjustRelativeBase m1) :
      InstrEffect s i ((s.setRb (s.rb + s.operand 1 m1)).advance (s.ptr + (i.length : Int)))
  | halt (hi : i = .halt) : InstrEffect s i s.halt
  | suspend {m1 : Mode} (hi : i = .input m1) (hp : s.paramFault 1 m1 = none) (hq : s.inQ = []) :
      InstrEffect s i s.suspend
  | fault (r : Raise) : InstrEffect s i (s.takeFault r)

section
variable {s t : State} {i : Instr}

theorem writeResult_instrEffect {m1 m2 m3 : Mode} {f : Word → Word → Checked Word} {c : Option Raise} {r : Word}
    (hi : i.writeMode = some m3) (harity : i.arity = 3) (hf : f (s.operand 1 m1) (s.operand 2 m2) = checked c r)
    (h : writeResult m1 m2 m3 f s = .next t) : InstrEffect s i t := by
  by_cases h3 : m3 = .immediate
  · subst h3
    rw [writeResult_immediate] at h
    cases h
    exact .fault _
  · rw [writeResult_eq m1 m2 h3 s f c r hf] at h
    rcases settled_cases h with ⟨hc, rfl⟩ | ⟨r, -, rfl⟩
    · simp only [firstFault_cons_eq_none] at hc
      obtain ⟨-, -, hp3, -⟩ := hc
      have hlen : (i.length : Int) = 4 := by simp [Instr.length, harity]
      rw [← hlen]
      exact .write r hi (by rw [harity]; exact State.destination_of_paramFault h3 hp3)
    · exact .fault r

/-- A conditional jump whose target, where its condition takes it, is `takenTarget`. -/
theorem jumpWhen_instrEffect {m1 m2 : Mode} {taken : Word → Bool} (harity : i.arity = 2)
    (ht : s.takenTarget i = if taken (s.operand 1 m1) then some (s.operand 2 m2) else none)
    (h : jumpWhen m1 m2 taken s = .next t) : InstrEffect s i t := by
  have hlen : (i.length : Int) = 3 := by simp [Instr.length, harity]
  rw [jumpWhen_eq] at h
  split at h
  case isTrue htaken =>
    rcases settled_cases h with ⟨-, rfl⟩ | ⟨r, -, rfl⟩
    · exact .jump (by rw [ht, if_pos htaken])
    · exact .fault r
  case isFalse htaken =>
    rcases settled_cases h with ⟨-, rfl⟩ | ⟨r, -, rfl⟩
    · rw [← hlen]
      exact .noJump (by rw [ht, if_neg htaken])
    · exact .fault r

theorem execInput_instrEffect {m1 : Mode} (h : execInput m1 s = .next t) : InstrEffect s (.input m1) t := by
  by_cases h1 : m1 = .immediate
  · subst h1
    rw [execInput_immediate] at h
    cases h
    exact .fault _
  · rw [execInput_eq h1] at h
    rcases settled_cases h with ⟨hp, rfl⟩ | ⟨r, -, rfl⟩
    · cases hq : s.inQ with
      | nil => exact .suspend rfl hp hq
      | cons v q =>
        cases s.advanceFault 2 with
        | none => exact .input rfl (State.destination_of_paramFault h1 hp) hq
        | some r => exact .fault r
    · exact .fault r

/-- Every next state of an instruction is one of its effects. -/
theorem exec_instrEffect (h : exec i s = .next t) : InstrEffect s i t := by
  cases i with
  | add m1 m2 m3 =>
    simp only [exec, execAdd] at h
    exact writeResult_instrEffect (h := h) (hf := checkWord_eq s none _) rfl rfl
  | mul m1 m2 m3 =>
    simp only [exec, execMul] at h
    exact writeResult_instrEffect (h := h) (hf := checkWord_eq s none _) rfl rfl
  | lessThan m1 m2 m3 =>
    simp only [exec, execLessThan] at h
    exact writeResult_instrEffect (h := h) (c := none) (hf := rfl) rfl rfl
  | equals m1 m2 m3 =>
    simp only [exec, execEquals] at h
    exact writeResult_instrEffect (h := h) (c := none) (hf := rfl) rfl rfl
  | jumpIfTrue m1 m2 => exact jumpWhen_instrEffect (h := h) rfl (by simp [State.takenTarget, isNonzero])
  | jumpIfFalse m1 m2 => exact jumpWhen_instrEffect (h := h) rfl (by simp [State.takenTarget, isZero])
  | input m1 => exact execInput_instrEffect h
  | output m1 =>
    replace h : execOutput m1 s = .next t := h
    rw [execOutput_eq] at h
    rcases settled_cases h with ⟨-, rfl⟩ | ⟨r, -, rfl⟩
    · exact .output rfl
    · exact .fault r
  | adjustRelativeBase m1 =>
    replace h : execAdjustRelativeBase m1 s = .next t := h
    rw [execAdjustRelativeBase_eq] at h
    rcases settled_cases h with ⟨-, rfl⟩ | ⟨r, -, rfl⟩
    · exact .base rfl
    · exact .fault r
  | halt =>
    cases h
    exact .halt rfl

/-! ### The step by the instruction it fetches -/

theorem step_of_fetches (hlive : s.live) (hi : s.fetches i) : step s = exec i s := by
  rw [step_live hlive, fetchDecode_eq_ok.2 hi]

/-- Every next state of a step: the same state when terminal, a fault of fetch or decode, or an effect of the instruction
fetched. -/
theorem step_instrEffect (h : step s = .next t) :
    ((s.run = .halted ∨ s.run = .faulted) ∧ t = s) ∨
    (s.live ∧ ((∃ r, t = s.takeFault r) ∨ ∃ i, s.fetches i ∧ InstrEffect s i t)) := by
  rcases step_cases h with hterminal | ⟨hlive, ⟨r, -, rfl⟩ | ⟨i, hfetch, hexec⟩⟩
  · exact .inl hterminal
  · exact .inr ⟨hlive, .inl ⟨r, rfl⟩⟩
  · exact .inr ⟨hlive, .inr ⟨i, fetchDecode_eq_ok.1 hfetch, exec_instrEffect hexec⟩⟩

/-! ### Each component after an instruction -/

namespace InstrEffect

/-- The end of an instruction: it completed, halted, suspended or faulted, and only a completion changes more than `run` and
`fault`. -/
theorem run_cases (h : InstrEffect s i t) :
    (t.run = .running ∧ t.fault = s.fault) ∨ (i = .halt ∧ t = s.halt) ∨
    (∃ m1, i = .input m1 ∧ s.paramFault 1 m1 = none ∧ s.inQ = [] ∧ t = s.suspend) ∨ ∃ r, t = s.takeFault r := by
  cases h with
  | write | input | output | jump | noJump | base => exact .inl ⟨rfl, rfl⟩
  | halt hi => exact .inr (.inl ⟨hi, rfl⟩)
  | suspend hi hp hq => exact .inr (.inr (.inl ⟨_, hi, hp, hq, rfl⟩))
  | fault r => exact .inr (.inr (.inr ⟨r, rfl⟩))

theorem eq_of_not_running (h : InstrEffect s i t) (hrun : t.run ≠ .running) :
    t = { s with run := t.run, fault := t.fault } := by
  rcases h.run_cases with ⟨hr, -⟩ | ⟨-, rfl⟩ | ⟨m1, -, -, -, rfl⟩ | ⟨r, rfl⟩
  · exact absurd hr hrun
  all_goals rfl

/-- A completed instruction other than halt sets `ptr` to the target of a taken jump, else past its cells (R25). -/
theorem ptr_of_running (h : InstrEffect s i t) (hrun : t.run = .running) :
    t.ptr = (s.takenTarget i).getD (s.ptr + (i.length : Int)) := by
  cases h with
  | write v hi hd => rw [s.takenTarget_of_writeMode hi]; rfl
  | input hi hd hq => rw [hi]; rfl
  | output hi => rw [hi]; rfl
  | jump ht => rw [ht]; rfl
  | noJump ht => rw [ht]; rfl
  | base hi => rw [hi]; rfl
  | halt | suspend | fault => cases hrun

theorem rb_cases (h : InstrEffect s i t) :
    t.rb = s.rb ∨ ∃ m1, i = .adjustRelativeBase m1 ∧ t.rb = s.rb + s.operand 1 m1 := by
  cases h with
  | base hi => exact .inr ⟨_, hi, rfl⟩
  | write | input | output | jump | noJump | halt | suspend | fault => exact .inl rfl

theorem inQ_cases (h : InstrEffect s i t) :
    t.inQ = s.inQ ∨ ∃ m1 v, i = .input m1 ∧ s.inQ = v :: t.inQ ∧ t.run = .running := by
  cases h with
  | input hi hd hq => exact .inr ⟨_, _, hi, hq, rfl⟩
  | write | output | jump | noJump | base | halt | suspend | fault => exact .inl rfl

theorem outQ_cases (h : InstrEffect s i t) :
    t.outQ = s.outQ ∨ ∃ m1, i = .output m1 ∧ t.outQ = s.outQ ++ [s.operand 1 m1] ∧ t.run = .running := by
  cases h with
  | output hi => exact .inr ⟨_, hi, rfl, rfl⟩
  | write | input | jump | noJump | base | halt | suspend | fault => exact .inl rfl

theorem mem_cases (h : InstrEffect s i t) :
    t.mem = s.mem ∨
    ∃ m d v, i.writeMode = some m ∧ s.destination i.arity m = some d ∧ t.mem = s.mem.write d v := by
  cases h with
  | write v hi hd => exact .inr ⟨_, _, v, hi, hd, rfl⟩
  | input hi hd hq => subst hi; exact .inr ⟨_, _, _, rfl, hd, rfl⟩
  | output | jump | noJump | base | halt | suspend | fault => exact .inl rfl

/-- A cell that an instruction changes is the one its write operand names. -/
theorem read_cases (h : InstrEffect s i t) (b : Nat) :
    t.mem.read b = s.mem.read b ∨ ∃ m, i.writeMode = some m ∧ s.destination i.arity m = some b := by
  rcases h.mem_cases with hmem | ⟨m, d, v, hi, hd, hmem⟩
  · exact .inl (by rw [hmem])
  · by_cases hb : b = d
    · exact .inr ⟨m, hi, hb ▸ hd⟩
    · exact .inl (by rw [hmem, Memory.read_write_other _ _ hb])

/-- A cell to which `writeParam` gives no write operand keeps its value. -/
theorem read_of_writeParam_ne {m : Mode} (h : InstrEffect s i t) (hi : i.writeMode = some m) {b : Nat}
    (hb : ∀ dm, m.toDest = some dm → writeParam i.arity dm s ≠ .ok b) : t.mem.read b = s.mem.read b := by
  refine (h.read_cases b).resolve_right ?_
  rintro ⟨m', hm', hd⟩
  obtain rfl : m = m' := Option.some.inj (hi.symm.trans hm')
  obtain ⟨dm, hdm, hwrite⟩ := State.destination_eq_some.1 hd
  exact hb dm hdm hwrite

/-- An instruction with no write operand changes no cell. -/
theorem read_of_no_writeMode (h : InstrEffect s i t) (hi : i.writeMode = none) (b : Nat) : t.mem.read b = s.mem.read b :=
  (h.read_cases b).resolve_right fun ⟨m, hm, _⟩ => by simp [hi] at hm

end InstrEffect

end

section
variable {s t : State}

/-- How a step of a live machine ends, and of which instructions. -/
theorem step_run_cases (hlive : s.live) (h : step s = .next t) :
    t.run = .running ∨ (s.fetches .halt ∧ t.run = .halted) ∨
    (∃ m1, s.fetches (.input m1) ∧ s.paramFault 1 m1 = none ∧ s.inQ = [] ∧ t.run = .ioWait) ∨ t.run = .faulted := by
  rcases step_instrEffect h with ⟨hr, -⟩ | ⟨-, ⟨r, rfl⟩ | ⟨i, hi, heffect⟩⟩
  · exact absurd hr (by simp [hlive])
  · exact .inr (.inr (.inr rfl))
  · rcases heffect.run_cases with ⟨hr, -⟩ | ⟨rfl, rfl⟩ | ⟨m1, rfl, hp, hq, rfl⟩ | ⟨r, rfl⟩
    · exact .inl hr
    · exact .inr (.inl ⟨hi, rfl⟩)
    · exact .inr (.inr (.inl ⟨m1, hi, hp, hq, rfl⟩))
    · exact .inr (.inr (.inr rfl))

/-- An input whose destination passes its checks suspends on an empty queue (R130). -/
theorem step_suspends {m1 : Mode} (hlive : s.live) (hi : s.fetches (.input m1)) (hp : s.paramFault 1 m1 = none)
    (hq : s.inQ = []) : step s = .next s.suspend := by
  have hm1 : m1 ≠ .immediate := by
    simpa [Instr.wellFormed, Instr.writeMode] using decode_wellFormed hi.2
  rw [step_of_fetches hlive hi]
  change execInput m1 s = .next s.suspend
  rw [execInput_eq hm1, hp, hq, settled_none]

end

/-! ### The statements about steps -/

/-- Settles O14: the run state after a live step is read off the end of the instruction fetched; that `halt` and an input without
data do end so is their meaning. -/
theorem runStateTransitions : Obligations.RunStateTransitions := by
  refine ⟨⟨rfl, rfl, rfl, rfl, rfl⟩, fun s t h => ⟨fun hr => ?_, fun hr => ?_, fun hlive => ?_⟩, fun _ => rfl,
    fun p P s hload => ?_⟩
  · rw [step_halted hr] at h; cases h; rfl
  · rw [step_faulted hr] at h; cases h; rfl
  · have hcases := step_run_cases hlive h
    refine ⟨?_, ⟨fun hr => ?_, fun hi => ?_⟩, ⟨fun hr => ?_, fun ⟨m1, hi, hp, hq⟩ => ?_⟩⟩
    · rcases hcases with hr | ⟨-, hr⟩ | ⟨m1, -, -, -, hr⟩ | hr <;> simp [hr]
    · simpa [hr] using hcases
    · rw [step_of_fetches hlive hi] at h; cases h; rfl
    · simpa [hr] using hcases
    · rw [step_suspends hlive hi hp hq] at h; cases h; rfl
  · obtain ⟨-, rfl⟩ := load_eq_some.1 hload
    rfl

/-- Settles O16: the end of the instruction fetched, and `ptr` where it completed. -/
theorem ptrAdvancesJumpsOrStays : Obligations.PtrAdvancesJumpsOrStays := by
  intro s t hlive h
  rcases step_instrEffect h with ⟨hr, -⟩ | ⟨-, ⟨r, rfl⟩ | ⟨i, hi, heffect⟩⟩
  · exact absurd hr (by simp [hlive])
  · exact ⟨fun hrun => (by cases hrun), fun _ => rfl⟩
  · refine ⟨fun hrun => ?_, fun hrun => by rw [heffect.eq_of_not_running hrun]⟩
    have hptr := heffect.ptr_of_running hrun
    exact ⟨i, hi, fun target ht => by simpa [ht] using hptr, fun hnone => by simpa [hnone] using hptr⟩

/-- Settles O17: the effects that change `rb` are those of adjust-relative-base. -/
theorem onlyAdjustWritesRb : Obligations.OnlyAdjustWritesRb := by
  intro s t h hne
  rcases step_instrEffect h with ⟨-, rfl⟩ | ⟨hlive, ⟨r, rfl⟩ | ⟨i, hi, heffect⟩⟩
  · exact absurd rfl hne
  · exact absurd rfl hne
  · obtain ⟨m1, rfl, hrb⟩ := heffect.rb_cases.resolve_left hne
    exact ⟨hlive, m1, hi, hrb⟩

/-- Settles O18: the effects that change a cell are those of an instruction with a write operand, at its destination. -/
theorem onlyTheDestinationCellChanges : Obligations.OnlyTheDestinationCellChanges := by
  intro s t b h hne
  rcases step_instrEffect h with ⟨-, rfl⟩ | ⟨hlive, ⟨r, rfl⟩ | ⟨i, hi, heffect⟩⟩
  · exact absurd rfl hne
  · exact absurd rfl hne
  · obtain ⟨m, hm, hd⟩ := (heffect.read_cases b).resolve_left hne
    exact ⟨hlive, i, m, hi, hm, hd⟩

/-! ### The frames of the instructions -/

/-- Settles O45: none of the four is the instruction that changes `rb`, a queue, or the run state without completing, and each has
its write operand as parameter 3. -/
theorem writingInstructionsFrame : Obligations.WritingInstructionsFrame := by
  intro s t m1 m2 m3 i hmem h
  have hi : i.writeMode = some m3 ∧ i.arity = 3 := by
    simp only [List.mem_cons, List.not_mem_nil, or_false] at hmem
    rcases hmem with rfl | rfl | rfl | rfl <;> exact ⟨rfl, rfl⟩
  obtain ⟨hwrite, harity⟩ := hi
  obtain ⟨himage, hparams⟩ := (exec_effect h).image_params
  have heffect := exec_instrEffect h
  refine ⟨heffect.rb_cases.resolve_right ?_, heffect.inQ_cases.resolve_right ?_, heffect.outQ_cases.resolve_right ?_, himage,
    hparams, ?_, fun b hb => heffect.read_of_writeParam_ne hwrite (harity ▸ hb)⟩
  · rintro ⟨m, rfl, -⟩; cases hwrite
  · rintro ⟨m, v, rfl, -⟩; cases harity
  · rintro ⟨m, rfl, -⟩; cases hwrite
  · rcases heffect.run_cases with hdone | ⟨rfl, -⟩ | ⟨m, rfl, -⟩ | ⟨r, rfl⟩
    · exact .inl hdone
    · cases hwrite
    · cases harity
    · exact .inr rfl

/-- Settles O46: input is not the instruction that changes `rb` or `OutQ`, it does not halt, and unless it completes only `run`
and `fault` change. -/
theorem inputFrame : Obligations.InputFrame := by
  intro s t m1 h
  obtain ⟨himage, hparams⟩ := (exec_effect h).image_params
  have heffect := exec_instrEffect h
  refine ⟨heffect.rb_cases.resolve_right ?_, heffect.outQ_cases.resolve_right ?_, himage, hparams, ?_, fun hrun => ?_,
    fun b hb => heffect.read_of_writeParam_ne rfl hb⟩
  · rintro ⟨m, hi, -⟩; cases hi
  · rintro ⟨m, hi, -⟩; cases hi
  · rcases heffect.run_cases with ⟨hrun, hfault⟩ | ⟨hi, -⟩ | ⟨m, -, -, -, rfl⟩ | ⟨r, rfl⟩
    · exact .inl ⟨.inl hrun, hfault⟩
    · cases hi
    · exact .inl ⟨.inr rfl, rfl⟩
    · exact .inr rfl
  · rw [heffect.eq_of_not_running hrun]
    exact ⟨rfl, fun _ => rfl⟩

/-- Settles O47: none of the five has a write operand or reads `InQ`; the instruction that changes `OutQ` is output, and the one
that changes `rb` is adjust-relative-base. -/
theorem nonWritingInstructionsFrame : Obligations.NonWritingInstructionsFrame := by
  intro s t m1 m2 i hmem h
  have hwrite : i.writeMode = none := by
    simp only [List.mem_cons, List.not_mem_nil, or_false] at hmem
    rcases hmem with rfl | rfl | rfl | rfl | rfl <;> rfl
  obtain ⟨himage, hparams⟩ := (exec_effect h).image_params
  have heffect := exec_instrEffect h
  refine ⟨heffect.read_of_no_writeMode hwrite, heffect.inQ_cases.resolve_right ?_, himage, hparams,
    fun hne => heffect.outQ_cases.resolve_right ?_, fun hne => heffect.rb_cases.resolve_right ?_, fun hrun => ?_⟩
  · rintro ⟨m, v, rfl, -⟩; cases hwrite
  · rintro ⟨m, rfl, -⟩; exact hne (by simpa using hmem)
  · rintro ⟨m, rfl, -⟩; exact hne (by simpa using hmem)
  · rcases heffect.run_cases with ⟨-, hfault⟩ | ⟨-, rfl⟩ | ⟨m, -, -, -, rfl⟩ | ⟨r, rfl⟩
    · exact hfault
    · rfl
    · rfl
    · exact absurd rfl hrun

end Sys2Proof.Machine
end

section
/-! PROOFS. Memory as what its cells read (20_memory.md R51, R52, R54, R62, R65): a canonical memory lists exactly the cells that
read other than 0, and a completed writing instruction stores its value where its write operand says. -/

namespace Sys2Proof.Machine

/-! ### The cells that a memory lists -/

/-- A canonical memory lists exactly the cells that do not read 0, each with the value it reads. -/
theorem Memory.mem_iff_read {m : Memory} (h : m.wf) {a : Nat} {v : Word} : (a, v) ∈ m ↔ v ≠ 0 ∧ m.read a = v := by
  obtain ⟨hrising, hnonzero⟩ := h
  induction m with
  | nil => simp [eq_comm]
  | cons c m ih =>
    obtain ⟨k, w⟩ := c
    obtain ⟨hbelow, hrising⟩ := List.pairwise_cons.1 hrising
    obtain ⟨hw, hnonzero⟩ := List.forall_mem_cons.1 hnonzero
    rw [List.mem_cons, Memory.read_cons]
    by_cases hak : a = k
    · subst hak
      have hunlisted : (a, v) ∉ m := fun hmem => lt_irrefl a (hbelow _ hmem)
      simp only [hunlisted, or_false, Prod.mk.injEq, true_and, if_true]
      exact ⟨fun hv => ⟨hv ▸ hw, hv.symm⟩, fun hv => hv.2.symm⟩
    · simp [hak, ih hrising hnonzero]

/-- Settles O8: canonical memories that read alike list the same cells, and a list by rising addresses is fixed by its entries. -/
theorem memoryIsItsContents : Obligations.MemoryIsItsContents := by
  intro m m' hm hm' hread
  have hirrefl : Std.Irrefl fun x y : Nat × Word => x.1 < y.1 := ⟨fun x => lt_irrefl x.1⟩
  have hasymm : Std.Asymm fun x y : Nat × Word => x.1 < y.1 := ⟨fun _ _ => lt_asymm⟩
  refine hm.1.eq_of_mem_iff hm'.1 fun ⟨a, v⟩ => ?_
  rw [Memory.mem_iff_read hm, Memory.mem_iff_read hm', hread]

/-- A write as the spec reads it back: the written cell the value, every other cell its own (R51, R52). -/
theorem Memory.read_write {m : Memory} (h : m.wf) (a b : Nat) (v : Word) :
    (m.write a v).read b = if b = a then v else m.read b := by
  split
  case isTrue hba => rw [hba, Memory.read_write_same h]
  case isFalse hba => exact Memory.read_write_other m v hba

/-! ### What a completed writing instruction stores -/

/-- The step from `s` to `t` stored `v` in the cell of address `d`, and changed no other cell and no parameter. -/
structure Stores (s t : State) (d v : Word) : Prop where
  addr : addrOk s.params d = true
  mem : t.mem = s.mem.write d.toNat v
  params : t.params = s.params

section
variable {s t : State}

theorem Stores.read_eq {d v : Word} (h : Stores s t d v) (hwf : s.mem.wf) (b : Nat) :
    t.mem.read b = if (b : Int) = d then v else s.mem.read b := by
  obtain ⟨n, rfl⟩ := Int.eq_ofNat_of_zero_le (addrOk_nonneg h.addr)
  simp [h.mem, Memory.read_write hwf]

/-- A completed F3RRW instruction stores its result at its third parameter. -/
theorem writeResult_stores {m1 m2 m3 : Mode} {f : Word → Word → Checked Word} {c : Option Raise} {r : Word}
    (hf : f (s.operand 1 m1) (s.operand 2 m2) = checked c r) (h : writeResult m1 m2 m3 f s = .next t)
    (hrun : t.run = .running) : Stores s t (s.effAddr 3 m3) r := by
  by_cases h3 : m3 = .immediate
  · subst h3
    rw [writeResult_immediate] at h
    cases h
    cases hrun
  · rw [writeResult_eq m1 m2 h3 s f c r hf] at h
    rcases settled_cases h with ⟨hc, rfl⟩ | ⟨r, -, rfl⟩
    · simp only [firstFault_cons_eq_none] at hc
      obtain ⟨-, -, hp3, -⟩ := hc
      exact ⟨State.effAddr_ok h3 hp3, rfl, rfl⟩
    · cases hrun

/-- A completed input stores the head of `InQ` at its parameter. -/
theorem execInput_stores {m1 : Mode} (h : execInput m1 s = .next t) (hrun : t.run = .running) :
    ∃ v, s.inQ.head? = some v ∧ Stores s t (s.effAddr 1 m1) v := by
  by_cases h1 : m1 = .immediate
  · subst h1
    rw [execInput_immediate] at h
    cases h
    cases hrun
  · rw [execInput_eq h1] at h
    rcases settled_cases h with ⟨hp, rfl⟩ | ⟨r, -, rfl⟩
    · cases hq : s.inQ with
      | nil => simp [hq] at hrun
      | cons v q =>
        cases hadv : s.advanceFault 2 with
        | none => exact ⟨v, rfl, State.effAddr_ok h1 hp, rfl, rfl⟩
        | some r => simp [hq, hadv] at hrun
    · cases hrun

/-- A completed instruction with a write operand stores the value of `State.storedValue` where that operand says. -/
theorem exec_stores {i : Instr} {m : Mode} (hi : i.writeMode = some m) (h : exec i s = .next t) (hrun : t.run = .running) :
    ∃ v, s.storedValue i = some v ∧ Stores s t (s.effAddr i.arity m) v := by
  cases i with
  | add m1 m2 m3 =>
    cases hi
    simp only [exec, execAdd] at h
    exact ⟨_, rfl, writeResult_stores (h := h) (hf := checkWord_eq s none _) (hrun := hrun)⟩
  | mul m1 m2 m3 =>
    cases hi
    simp only [exec, execMul] at h
    exact ⟨_, rfl, writeResult_stores (h := h) (hf := checkWord_eq s none _) (hrun := hrun)⟩
  | lessThan m1 m2 m3 =>
    cases hi
    simp only [exec, execLessThan] at h
    exact ⟨_, rfl, writeResult_stores (h := h) (c := none) (hf := by simp [boolWord]) (hrun := hrun)⟩
  | equals m1 m2 m3 =>
    cases hi
    simp only [exec, execEquals] at h
    exact ⟨_, rfl, writeResult_stores (h := h) (c := none) (hf := by simp [boolWord]) (hrun := hrun)⟩
  | input m1 =>
    cases hi
    exact execInput_stores h hrun
  | output | jumpIfTrue | jumpIfFalse | adjustRelativeBase | halt => cases hi

theorem step_stores {i : Instr} {m : Mode} (hlive : s.live) (hfetch : s.fetches i) (h : step s = .next t)
    (hrun : t.run = .running) (hi : i.writeMode = some m) :
    ∃ v, s.storedValue i = some v ∧ Stores s t (s.effAddr i.arity m) v :=
  exec_stores hi (step_of_fetches hlive hfetch ▸ h) hrun

/-! ### A fetched word that does not decode -/

theorem fetchDecode_of_addrOk (h : addrOk s.params s.ptr = true) :
    fetchDecode s = decodeFetched s (s.mem.read s.ptr.toNat) := by
  unfold fetchDecode
  rw [fetchWord_eq, addrFault_eq_none.2 h, checked_none, Checked.bind_ok]

theorem step_of_decode_error {f : DecodeFault} (hlive : s.live) (haddr : addrOk s.params s.ptr = true)
    (h : decode s.params.extraDigits (s.mem.read s.ptr.toNat) = .error f) :
    step s = .next (s.takeFault (decodeRaise (s.mem.read s.ptr.toNat) f)) := by
  rw [step_live hlive, fetchDecode_of_addrOk haddr, decodeFetched, h]

end

/-! ### The statements about written cells -/

/-- Settles O59: read after write in canonical memory, of the store that a completed writing instruction makes. -/
theorem writtenCellsReadBack : Obligations.WrittenCellsReadBack := by
  refine ⟨fun m a b v h => Memory.read_write h a b v, fun s t j m hwf hlive hfetch hstep hrun hi => ?_⟩
  obtain ⟨v, hv, hstores⟩ := step_stores hlive hfetch hstep hrun hi
  exact ⟨v, hv, hstores.read_eq hwf⟩

/-- Settles O21: the value stored at the new `ptr` is what is read there, so the next step decodes it. -/
theorem storedWordIsFetchedNext : Obligations.StoredWordIsFetchedNext := by
  intro s t j m hwf hlive hfetch hstep hrun hi hptr
  obtain ⟨v, hv, hstores⟩ := step_stores hlive hfetch hstep hrun hi
  rw [hptr] at hstores
  have haddr : addrOk t.params t.ptr = true := hstores.params ▸ hstores.addr
  have hread : t.mem.read t.ptr.toNat = v := by
    rw [hstores.read_eq hwf, if_pos (Int.toNat_of_nonneg (addrOk_nonneg haddr))]
  have hlive' : t.live := by simp [State.live, hrun]
  refine ⟨v, hv, ?_⟩
  rw [← hstores.params, ← hread]
  exact ⟨fun i hdecode => step_of_fetches hlive' ⟨haddr, hdecode⟩,
    fun f hdecode => step_of_decode_error hlive' haddr hdecode⟩

end Sys2Proof.Machine
end

section
/-! PROOFS. Which words do not decode, and why (30_encoding.md R81, R83, R85, R86, R88, R93): the checks of a format as one
predicate over its parameters, read off the five formats of R92. -/

namespace Sys2Proof

/-! ### The faults of a format -/

/-- The mode digits of parameters `a` to `n` are those of modes (R85). -/
def ModesValid (w a n : Nat) : Prop :=
  ∀ k, a ≤ k → k ≤ n → digit w (k + 1) ≤ 2

/-- `f` names the lowest of the parameters `a` to `n` whose mode digit is that of no mode (R85). -/
def ModeFails (w a n : Nat) (f : DecodeFault) : Prop :=
  ∃ i, a ≤ i ∧ i ≤ n ∧ 3 ≤ digit w (i + 1) ∧ (∀ k, a ≤ k → k < i → digit w (k + 1) ≤ 2) ∧
    f = .invalidMode i (digit w (i + 1))

/-- `f` is what the checks after the modes raise for arity `n` and write parameter `j` (R86, R88, R93). -/
def LaterCheckFails (x : ExtraDigits) (w n : Nat) (j : Option Nat) (f : DecodeFault) : Prop :=
  (x = .fault ∧ w / 10 ^ (n + 2) ≠ 0) ∧ f = .extraDigits ∨
  (x = .fault → w / 10 ^ (n + 2) = 0) ∧ ∃ k, j = some k ∧ digit w (k + 1) = 1 ∧ f = .invalidWriteTarget k

/-- `f` is what the checks of R93 raise from parameter `a` on. -/
def FormatFails (x : ExtraDigits) (w a n : Nat) (j : Option Nat) (f : DecodeFault) : Prop :=
  ModeFails w a n f ∨ ModesValid w a n ∧ LaterCheckFails x w n j f

section
variable {x : ExtraDigits} {w a n : Nat} {j : Option Nat} {f : DecodeFault}

theorem forall_le_iff_succ {P : Nat → Prop} : (∀ k, a ≤ k → P k) ↔ P a ∧ ∀ k, a + 1 ≤ k → P k := by
  refine ⟨fun h => ⟨h a le_rfl, fun k hk => h k (by omega)⟩, fun ⟨ha, h⟩ k hk => ?_⟩
  rcases hk.eq_or_lt with rfl | hk
  · exact ha
  · exact h k hk

theorem modesValid_succ (h : a ≤ n) : ModesValid w a n ↔ digit w (a + 1) ≤ 2 ∧ ModesValid w (a + 1) n := by
  simp [ModesValid, forall_le_iff_succ (a := a), h]

theorem modeFails_succ (h : a ≤ n) :
    ModeFails w a n f ↔
      (3 ≤ digit w (a + 1) ∧ f = .invalidMode a (digit w (a + 1))) ∨
      digit w (a + 1) ≤ 2 ∧ ModeFails w (a + 1) n f := by
  constructor
  · rintro ⟨i, hai, hin, hbad, hlower, hf⟩
    rcases hai.eq_or_lt with rfl | hai
    · exact .inl ⟨hbad, hf⟩
    · exact .inr ⟨hlower a le_rfl hai, i, hai, hin, hbad, fun k hk => hlower k (by omega), hf⟩
  · rintro (⟨hbad, hf⟩ | ⟨hok, i, hai, hin, hbad, hlower, hf⟩)
    · exact ⟨a, le_rfl, h, hbad, fun k _ _ => by omega, hf⟩
    · exact ⟨i, by omega, hin, hbad, forall_le_iff_succ.2 ⟨fun _ => hok, hlower⟩, hf⟩

/-- After the last parameter only the later checks are left. -/
theorem formatFails_later : FormatFails x w (n + 1) n j f ↔ LaterCheckFails x w n j f := by
  have hvalid : ModesValid w (n + 1) n := fun k hak hkn => by omega
  have hfails : ¬ ModeFails w (n + 1) n f := fun ⟨i, hai, hin, _⟩ => by omega
  simp [FormatFails, hvalid, hfails]

/-- A format that reads the mode of parameter `a` first fails there, or passes and fails later. -/
theorem decodeMode_bind_eq_error {g : Mode → Except DecodeFault Instr} (h : a ≤ n)
    (hg : ∀ m : Mode, digit w (a + 1) = m.toDigit → (g m = .error f ↔ FormatFails x w (a + 1) n j f)) :
    (decodeMode w a >>= g) = .error f ↔ FormatFails x w a n j f := by
  rw [decode_bind_eq_error, decodeMode_eq_error, FormatFails, modeFails_succ h, modesValid_succ h]
  cases hm : Mode.ofDigit (digit w (a + 1)) with
  | none =>
    have hbad := Mode.ofDigit_eq_none.1 hm
    simp [decodeMode, hm, hbad, Nat.not_le.2 hbad]
  | some m =>
    have hdigit := Mode.ofDigit_eq_some.1 hm
    have hok : digit w (a + 1) ≤ 2 := hdigit ▸ m.toDigit_le
    simp [decodeMode, hm, hok, Nat.not_le.2 (Nat.lt_succ_of_le hok), hg m hdigit, FormatFails]

theorem Mode.toDigit_eq_one {m : Mode} : m.toDigit = 1 ↔ m = .immediate := by
  cases m <;> decide

/-- The end of a format that only reads. -/
theorem checkExtra_bind_eq_error {i : Instr} :
    (checkExtra x w n >>= fun _ => .ok i) = .error f ↔ FormatFails x w (n + 1) n none f := by
  simp [formatFails_later, LaterCheckFails, decode_bind_eq_error, checkExtra_eq_error]

/-- The end of a format whose parameter `k` is written. -/
theorem checkWriteTarget_bind_eq_error {i : Instr} {k : Nat} {m : Mode} (hm : digit w (k + 1) = m.toDigit) :
    (checkExtra x w n >>= fun _ => checkWriteTarget k m >>= fun _ => .ok i) = .error f ↔
      FormatFails x w (n + 1) n (some k) f := by
  simp [formatFails_later, LaterCheckFails, decode_bind_eq_error, checkExtra_eq_error, checkExtra_eq_ok,
    checkWriteTarget_eq_error, hm, Mode.toDigit_eq_one]

theorem decodeF0_eq_error {i : Instr} : decodeF0 x w i = .error f ↔ FormatFails x w 1 0 none f :=
  checkExtra_bind_eq_error

theorem decodeF1R_eq_error {mk : Mode → Instr} : decodeF1R x w mk = .error f ↔ FormatFails x w 1 1 none f :=
  decodeMode_bind_eq_error le_rfl fun _ _ => checkExtra_bind_eq_error

theorem decodeF1W_eq_error {mk : Mode → Instr} : decodeF1W x w mk = .error f ↔ FormatFails x w 1 1 (some 1) f :=
  decodeMode_bind_eq_error le_rfl fun _ h1 => checkWriteTarget_bind_eq_error h1

theorem decodeF2RR_eq_error {mk : Mode → Mode → Instr} : decodeF2RR x w mk = .error f ↔ FormatFails x w 1 2 none f :=
  decodeMode_bind_eq_error (by decide) fun _ _ => decodeMode_bind_eq_error le_rfl fun _ _ => checkExtra_bind_eq_error

theorem decodeF3RRW_eq_error {mk : Mode → Mode → Mode → Instr} :
    decodeF3RRW x w mk = .error f ↔ FormatFails x w 1 3 (some 3) f :=
  decodeMode_bind_eq_error (by decide) fun _ _ => decodeMode_bind_eq_error (by decide) fun _ _ =>
    decodeMode_bind_eq_error le_rfl fun _ h3 => checkWriteTarget_bind_eq_error h3

/-! ### The faults of a word -/

theorem arityOf_eq_none {op : Nat} : arityOf op = none ↔ op ∉ [1, 2, 3, 4, 5, 6, 7, 8, 9, 99] := by
  unfold arityOf
  split_ifs <;> simp <;> omega

/-- A write parameter is the last one (R87). -/
theorem arityOf_of_writeParamOf {op k : Nat} (h : writeParamOf op = some k) : arityOf op = some k := by
  unfold writeParamOf at h
  split_ifs at h with h3 h1
  · cases h; simp [arityOf, h3]
  · cases h; simp [arityOf, h1]

/-- A non-negative word fails by its opcode, or by the checks of the format its opcode selects (R93, R101). -/
theorem decodeNat_eq_error :
    decodeNat x w = .error f ↔
      arityOf (w % 100) = none ∧ f = .unknownOpcode ∨
      ∃ n, arityOf (w % 100) = some n ∧ FormatFails x w 1 n (writeParamOf (w % 100)) f := by
  unfold decodeNat
  split
  case h_11 h1 h2 h3 h4 h5 h6 h7 h8 h9 h99 =>
    have hnone : arityOf (w % 100) = none := arityOf_eq_none.2 (by simpa using ⟨h1, h2, h3, h4, h5, h6, h7, h8, h9, h99⟩)
    simp [hnone, eq_comm]
  all_goals
    simp [*, arityOf, writeParamOf, decodeF0_eq_error, decodeF1R_eq_error, decodeF1W_eq_error, decodeF2RR_eq_error,
      decodeF3RRW_eq_error]

/-- A word fails because it is negative, by its opcode, or by the checks of the format its opcode selects (R81, R93). -/
theorem decode_eq_error {w : Word} :
    decode x w = .error f ↔
      w < 0 ∧ f = .unknownOpcode ∨
      0 ≤ w ∧ (arityOf (w.toNat % 100) = none ∧ f = .unknownOpcode ∨
        ∃ n, arityOf (w.toNat % 100) = some n ∧ FormatFails x w.toNat 1 n (writeParamOf (w.toNat % 100)) f) := by
  rcases lt_or_ge w 0 with hneg | hnonneg
  · simp [decode_negative x hneg, hneg, not_le.2 hneg, eq_comm]
  · simp only [decode_nonneg x hnonneg, decodeNat_eq_error, hnonneg, not_lt.2 hnonneg, false_and, false_or, true_and]

end

/-! ### The digits above the last mode digit -/

theorem digit_mod_pow {k n : Nat} (w : Nat) (h : k < n) : digit (w % 10 ^ n) k = digit w k := by
  obtain ⟨m, rfl⟩ := Nat.exists_eq_add_of_lt h
  rw [digit, digit, add_assoc, pow_add, Nat.mod_mul_right_div_self, Nat.mod_mod_of_dvd _ (dvd_pow_self 10 m.succ_ne_zero)]

theorem mod_pow_mod_hundred (w n : Nat) : w % 10 ^ (n + 2) % 100 = w % 100 :=
  Nat.mod_mod_of_dvd w (pow_dvd_pow 10 (Nat.le_add_left 2 n))

/-- Under `Ignore` a word of arity `n` decodes by its opcode and its `n` mode digits. -/
theorem decodeNat_ignore_congr {v w n : Nat} (hn : arityOf (w % 100) = some n) (hop : v % 100 = w % 100)
    (hmodes : ∀ i ≤ n, decodeMode v i = decodeMode w i) : decodeNat .ignore v = decodeNat .ignore w := by
  unfold decodeNat
  rw [hop]
  split
  case h_11 => rfl
  all_goals
    simp only [*, arityOf] at hn
    cases hn
    simp [decodeF0, decodeF1R, decodeF1W, decodeF2RR, decodeF3RRW, checkExtra, hmodes]

theorem decodeNat_ignore_mod {w n : Nat} (hn : arityOf (w % 100) = some n) :
    decodeNat .ignore (w % 10 ^ (n + 2)) = decodeNat .ignore w :=
  decodeNat_ignore_congr hn (mod_pow_mod_hundred w n) fun i hi => by
    unfold decodeMode
    rw [digit_mod_pow w (by omega : i + 1 < n + 2)]

/-! ### The statements about words that do not decode -/

/-- Settles O24: no check of a format raises `UnknownOpcode`. -/
theorem unknownOpcodeWords : Obligations.UnknownOpcodeWords := by
  intro x w
  rw [decode_eq_error, ← arityOf_eq_none]
  simp only [FormatFails, ModeFails, LaterCheckFails, reduceCtorEq, and_false, exists_false, or_self, or_false, and_true]
  rcases lt_or_ge w 0 with hneg | hnonneg
  · simp [hneg]
  · simp [hnonneg]

/-- Settles O25: only the mode check raises `InvalidMode`. -/
theorem invalidModeWords : Obligations.InvalidModeWords := by
  intro x w i d
  simp only [decode_eq_error, FormatFails, ModeFails, LaterCheckFails, digit, reduceCtorEq, and_false, exists_false, or_false,
    false_or, DecodeFault.invalidMode.injEq]
  constructor
  · rintro ⟨hnonneg, n, hn, i, hi, hin, hbad, hlower, rfl, rfl⟩
    exact ⟨hnonneg, ⟨n, hn, hi, hin⟩, rfl, hbad, hlower⟩
  · rintro ⟨hnonneg, ⟨n, hn, hi, hin⟩, rfl, hbad, hlower⟩
    exact ⟨hnonneg, n, hn, i, hi, hin, hbad, hlower, rfl, rfl⟩

/-- Settles O26: only the check after the modes raises `ExtraDigits`; and under `Ignore` a word decodes by its opcode and its mode
digits, which the remainder keeps. -/
theorem extraDigitsWords : Obligations.ExtraDigitsWords := by
  refine ⟨fun x w => ?_, fun w n hn => (decodeNat_ignore_mod hn).symm⟩
  simp only [decode_eq_error, FormatFails, ModeFails, LaterCheckFails, reduceCtorEq, and_false, exists_false, or_false, false_or,
    and_true]
  constructor
  · rintro ⟨hnonneg, n, hn, hvalid, hx, hextra⟩
    exact ⟨hx, hnonneg, n, hn, hextra, hvalid⟩
  · rintro ⟨hx, hnonneg, n, hn, hextra, hvalid⟩
    exact ⟨hnonneg, n, hn, hvalid, hx, hextra⟩

/-- Settles O27: the write parameter is the last one, so its mode digit and those below are all the mode digits. -/
theorem invalidWriteTargetWords : Obligations.InvalidWriteTargetWords := by
  intro x w j
  simp only [decode_eq_error, FormatFails, ModeFails, LaterCheckFails, reduceCtorEq, and_false, exists_false, false_or,
    DecodeFault.invalidWriteTarget.injEq]
  constructor
  · rintro ⟨hnonneg, n, hn, hvalid, hextra, j, hj, htarget, rfl⟩
    obtain rfl : n = j := Option.some.inj (hn.symm.trans (arityOf_of_writeParamOf hj))
    exact ⟨hnonneg, hj, htarget, fun k hk hkn => hvalid k hk hkn.le, hextra⟩
  · rintro ⟨hnonneg, hj, htarget, hlower, hextra⟩
    refine ⟨hnonneg, j, arityOf_of_writeParamOf hj, fun k hk hkj => ?_, hextra, j, hj, htarget, rfl⟩
    rcases hkj.eq_or_lt with rfl | hkj
    · exact htarget.trans_le (by decide)
    · exact hlower k hk hkj

end Sys2Proof
end

section
/-! PROOFS. Decoding and encoding (30_encoding.md R84, R86, R91 to R93, R100): a word decodes to an instruction exactly when its
digits up to the last mode digit are those of the instruction's encoding. -/

namespace Sys2Proof

/-! ### The word of an instruction -/

theorem modeDigits_cons {w k : Nat} {m : Mode} {ms : List Mode} (hm : digit w k = m.toDigit)
    (hms : w / 10 ^ (k + 1) % 10 ^ ms.length = modeDigits ms) :
    w / 10 ^ k % 10 ^ (ms.length + 1) = modeDigits (m :: ms) := by
  rw [pow_succ', Nat.mod_mul, Nat.div_div_eq_div_mul, ← pow_succ, hms, ← digit, hm, modeDigits]

theorem modeDigits_nil (w k : Nat) : w / 10 ^ k % 10 ^ 0 = modeDigits [] :=
  Nat.mod_one _

/-- A word that decodes to `i` has the opcode and the mode digits of `i` (R92). -/
theorem decodeNat_digits {x : ExtraDigits} {w : Nat} {i : Instr} (h : decodeNat x w = .ok i) :
    w % 100 = i.opcode ∧ (x = .fault → w / 10 ^ (i.arity + 2) = 0) ∧ w / 10 ^ 2 % 10 ^ i.arity = modeDigits i.modes := by
  unfold decodeNat at h
  split at h <;>
    simp only [decodeF0_eq_ok, decodeF1R_eq_ok, decodeF1W_eq_ok, decodeF2RR_eq_ok, decodeF3RRW_eq_ok, reduceCtorEq] at h
  case h_1 hop | h_2 hop | h_7 hop | h_8 hop =>
    obtain ⟨m1, h1, m2, h2, m3, h3, hx, -, rfl⟩ := h
    exact ⟨hop, hx, modeDigits_cons h1 (modeDigits_cons h2 (modeDigits_cons h3 (modeDigits_nil w 5)))⟩
  case h_5 hop | h_6 hop =>
    obtain ⟨m1, h1, m2, h2, hx, rfl⟩ := h
    exact ⟨hop, hx, modeDigits_cons h1 (modeDigits_cons h2 (modeDigits_nil w 4))⟩
  case h_3 hop =>
    obtain ⟨m1, h1, hx, -, rfl⟩ := h
    exact ⟨hop, hx, modeDigits_cons h1 (modeDigits_nil w 3)⟩
  case h_4 hop | h_9 hop =>
    obtain ⟨m1, h1, hx, rfl⟩ := h
    exact ⟨hop, hx, modeDigits_cons h1 (modeDigits_nil w 3)⟩
  case h_10 hop =>
    obtain ⟨hx, rfl⟩ := h
    exact ⟨hop, hx, modeDigits_nil w 2⟩

/-- The encoding of a well-formed instruction decodes to it, under either setting of `EXTRA_DIGITS`. -/
theorem decode_encode (x : ExtraDigits) {i : Instr} (h : i.wellFormed = true) : decode x (encode i) = .ok i := by
  cases i with
  | add m1 m2 m3 => exact Laws.RoundTrip.add m1 m2 m3 h x
  | mul m1 m2 m3 => exact Laws.RoundTrip.mul m1 m2 m3 h x
  | input m1 => exact Laws.RoundTrip.input m1 h x
  | output m1 => exact Laws.RoundTrip.output m1 h x
  | jumpIfTrue m1 m2 => exact Laws.RoundTrip.jumpIfTrue m1 m2 h x
  | jumpIfFalse m1 m2 => exact Laws.RoundTrip.jumpIfFalse m1 m2 h x
  | lessThan m1 m2 m3 => exact Laws.RoundTrip.lessThan m1 m2 m3 h x
  | equals m1 m2 m3 => exact Laws.RoundTrip.equals m1 m2 m3 h x
  | adjustRelativeBase m1 => exact Laws.RoundTrip.adjustRelativeBase m1 h x
  | halt => exact Laws.RoundTrip.halt h x

theorem Instr.arityOf_opcode (i : Instr) : arityOf i.opcode = some i.arity := by
  cases i <;> rfl

theorem Instr.opcode_mod (i : Instr) : i.opcode % 100 = i.opcode := by
  cases i <;> rfl

theorem decode_ok_nonneg {x : ExtraDigits} {w : Word} {i : Instr} (h : decode x w = .ok i) : 0 ≤ w := by
  by_contra hneg
  rw [decode_negative x (not_le.1 hneg)] at h
  cases h

/-- A word that decodes to `i` is the encoding of `i` up to its last mode digit, and under `Fault` has no digit above. -/
theorem encode_of_decode {x : ExtraDigits} {w : Nat} {i : Instr} (h : decode x w = .ok i) :
    ((w % 10 ^ (i.arity + 2) : Nat) : Word) = encode i ∧ (x = .fault → w < 10 ^ (i.arity + 2)) := by
  obtain ⟨hop, hextra, hmodes⟩ := decodeNat_digits h
  constructor
  · rw [add_comm, pow_add, Nat.mod_mul, hmodes, show w % 10 ^ 2 = i.opcode from hop]
    rfl
  · exact fun hx => (Nat.div_eq_zero_iff_lt (by positivity)).1 (hextra hx)

/-- Settles O28: a word that decodes under `Fault` is its own remainder below the digits above, which is the encoding of its
instruction; and the encoding decodes to the instruction. -/
theorem decodeIsInverseOfEncode : Obligations.DecodeIsInverseOfEncode := by
  refine fun w i => ⟨fun h => ⟨decode_wellFormed h, ?_⟩, fun ⟨hwf, hw⟩ => hw ▸ decode_encode _ hwf⟩
  lift w to Nat using decode_ok_nonneg h
  obtain ⟨hword, hlt⟩ := encode_of_decode h
  rwa [Nat.mod_eq_of_lt (hlt rfl)] at hword

/-- The opcode of a word is that of the instruction its digits up to the last mode digit encode. -/
theorem mod_hundred_of_encode {w : Nat} {i : Instr} (h : ((w % 10 ^ (i.arity + 2) : Nat) : Word) = encode i) :
    w % 100 = i.opcode := by
  rw [← mod_pow_mod_hundred w i.arity, Int.ofNat.inj h, Nat.add_mul_mod_self_left, i.opcode_mod]

/-- Settles O29: a word that decodes is an encoding up to its last mode digit; conversely the digits above do not matter under
`Ignore`, and the encoding decodes to its instruction. -/
theorem decodeIgnoringExtraDigits : Obligations.DecodeIgnoringExtraDigits := by
  intro w i
  constructor
  · intro h
    lift w to Nat using decode_ok_nonneg h
    exact ⟨decode_wellFormed h, decode_ok_nonneg h, mod_cast (encode_of_decode h).1⟩
  · rintro ⟨hwf, hnonneg, hword⟩
    lift w to Nat using hnonneg
    replace hword : ((w % 10 ^ (i.arity + 2) : Nat) : Word) = encode i := mod_cast hword
    calc decode .ignore w = decode .ignore (w % 10 ^ (i.arity + 2) : Nat) :=
          (decodeNat_ignore_mod (mod_hundred_of_encode hword ▸ i.arityOf_opcode)).symm
      _ = .ok i := by rw [hword, decode_encode _ hwf]

/-- Settles O30: the encoding decodes to the instruction, whose arity says how many of the cells after it are parameters. -/
theorem assembledInstructionReadsBack : Obligations.AssembledInstructionReadsBack := by
  intro x i raws rest cells h
  unfold Machine.assembleInstr at h
  split at h
  case isFalse => cases h
  case isTrue hc =>
    cases h
    simp only [Bool.and_eq_true, beq_iff_eq] at hc
    obtain ⟨hwf, hlength⟩ := hc
    refine ⟨by simp [hlength, Instr.length, add_comm], ?_⟩
    simp [Machine.disassembleInstr, decode_encode x hwf, ← hlength]

/-- Settles O31: each word written out from its pattern (R101). -/
theorem sampleWordsDecode : Obligations.SampleWordsDecode := by
  unfold Obligations.SampleWordsDecode
  decide

end Sys2Proof
end

section
/-! PROOFS. Fetch, operands and expansions (30_encoding.md R80, R84, R88 to R91, R99; 60_exceptions.md R211): the address checks
under a given `MEM_SIZE`, what they leave of the operand checks under the default parameters, and the cells of the
pseudo-instructions. -/

namespace Sys2Proof.Machine

section
variable {s : State}

/-! ### Fetch outside memory -/

/-- A fetch that faults records no word (R213). -/
theorem step_of_fetch_fault {r : Raise} (hlive : s.live) (h : s.addrFault none s.ptr = some r) :
    step s = .next { s with run := .faulted, fault := some ⟨r.kind, s.ptr, none, r.param, r.value⟩ } := by
  have haddr : addrOk s.params s.ptr = false := by
    by_contra hok
    rw [addrFault_eq_none.2 (by simpa using hok)] at h
    cases h
  rw [step_live hlive, fetchDecode, fetchWord_eq, h]
  simp [State.takeFault, State.currentWord, haddr]

theorem addrFault_negative {i : Option Nat} {a : Word} (h : a < 0) :
    s.addrFault i a = some ⟨.negativeAddress, i, a⟩ := by
  simp [State.addrFault, addrOk, h, not_le.2 h]

theorem addrFault_limit {i : Option Nat} {a : Word} {n : Nat} (hsize : s.params.memSize = some n) (hn : (n : Int) ≤ a)
    (ha : 0 ≤ a) : s.addrFault i a = some ⟨.addressLimit, i, a⟩ := by
  simp [State.addrFault, addrOk, hsize, not_lt.2 hn, not_lt.2 ha]

/-! ### The checks on a parameter under the default parameters -/

section
variable (hdefault : s.params = Params.default)
include hdefault

theorem wordFault_default (i : Option Nat) (v : Word) : s.wordFault i v = none := by
  rw [wordFault_eq_none, hdefault]
  rfl

theorem addrFault_default {i : Option Nat} {a : Word} (h : 0 ≤ a) : s.addrFault i a = none := by
  simpa [addrFault_eq_none, hdefault, addrOk, Params.default] using h

/-- A parameter whose cell has an address fails only by its effective address (R84, R91). -/
theorem paramFault_default (hptr : 0 ≤ s.ptr) (i : Nat) (m : Mode) : s.paramFault i m = s.effFault i m := by
  have hcell : 0 ≤ s.ptr + (i : Int) := add_nonneg hptr (Int.natCast_nonneg i)
  rw [State.paramFault, wordFault_default hdefault, addrFault_default hdefault hcell]
  cases s.effFault i m <;> rfl

theorem effFault_default (i : Nat) {m : Mode} (hm : m ≠ .immediate) :
    s.effFault i m = s.addrFault (some i) (s.effAddr i m) := by
  cases m with
  | position => rfl
  | immediate => exact absurd rfl hm
  | relative =>
    rw [State.effFault, wordFault_default hdefault]
    cases s.addrFault (some i) (s.effAddr i .relative) <;> rfl

/-- The checks on a parameter that names a cell pass when its effective address is not negative. -/
theorem paramFault_nonneg (hptr : 0 ≤ s.ptr) {i : Nat} {m : Mode} (hm : m ≠ .immediate) (h : 0 ≤ s.effAddr i m) :
    s.paramFault i m = none := by
  rw [paramFault_default hdefault hptr, effFault_default hdefault i hm, addrFault_default hdefault h]

theorem paramFault_negative (hptr : 0 ≤ s.ptr) {i : Nat} {m : Mode} (hm : m ≠ .immediate) (h : s.effAddr i m < 0) :
    s.paramFault i m = some ⟨.negativeAddress, some i, s.effAddr i m⟩ := by
  rw [paramFault_default hdefault hptr, effFault_default hdefault i hm, addrFault_negative h]

/-- A read operand that names a cell fails exactly by a negative effective address (R89). -/
theorem readParam_nonneg (hptr : 0 ≤ s.ptr) {i : Nat} {m : Mode} (hm : m ≠ .immediate) (h : 0 ≤ s.effAddr i m) :
    readParam i m s = .ok (s.operand i m) := by
  rw [readParam_eq, paramFault_nonneg hdefault hptr hm h, checked_none]

theorem readParam_negative (hptr : 0 ≤ s.ptr) {i : Nat} {m : Mode} (hm : m ≠ .immediate) (h : s.effAddr i m < 0) :
    readParam i m s = .error ⟨.negativeAddress, some i, s.effAddr i m⟩ := by
  rw [readParam_eq, paramFault_negative hdefault hptr hm h, checked_some]

/-- A write operand fails exactly by a negative effective address (R90). -/
theorem writeParam_nonneg (hptr : 0 ≤ s.ptr) {j : Nat} {d : DestMode} (hd : DestMode.mode d ≠ .immediate)
    (h : 0 ≤ s.effAddr j (DestMode.mode d)) : writeParam j d s = .ok (s.effAddr j (DestMode.mode d)).toNat := by
  rw [writeParam_eq, paramFault_nonneg hdefault hptr hd h, checked_none]

theorem writeParam_negative (hptr : 0 ≤ s.ptr) {j : Nat} {d : DestMode} (hd : DestMode.mode d ≠ .immediate)
    (h : s.effAddr j (DestMode.mode d) < 0) :
    writeParam j d s = .error ⟨.negativeAddress, some j, s.effAddr j (DestMode.mode d)⟩ := by
  rw [writeParam_eq, paramFault_negative hdefault hptr hd h, checked_some]

end

end

/-! ### Assembled operations -/

theorem assembleOp_wellFormed {ls : Labels} {op : Mnemonic} {operands : List AsmOperand} {i : Instr} {raws : List Word}
    (hi : op.build (operands.map AsmOperand.mode) = some i) (hraws : allSome (operands.map (AsmOperand.raw ls)) = some raws)
    (hwf : i.wellFormed = true) (hlength : raws.length = i.arity) : assembleOp ls op operands = some (encode i :: raws) := by
  simp [assembleOp, hi, hraws, assembleInstr, hwf, hlength]

/-- The assembler refuses an Immediate write operand (R88, R100). -/
theorem assembleOp_illFormed {ls : Labels} {op : Mnemonic} {operands : List AsmOperand} {i : Instr}
    (hi : op.build (operands.map AsmOperand.mode) = some i) (hwf : i.wellFormed = false) :
    assembleOp ls op operands = none := by
  rw [assembleOp, hi]
  cases allSome (operands.map (AsmOperand.raw ls)) <;> simp [assembleInstr, hwf]

theorem encode_jumpIfTrue (m1 m2 : Mode) :
    encode (.jumpIfTrue m1 m2) = 5 + 100 * (m1.toDigit : Int) + 1000 * (m2.toDigit : Int) := by
  simp only [encode, Instr.opcode, Instr.modes, modeDigits, Int.ofNat_eq_natCast]
  push_cast
  ring

theorem encode_add (m1 m2 m3 : Mode) :
    encode (.add m1 m2 m3) = 1 + 100 * (m1.toDigit : Int) + 1000 * (m2.toDigit : Int) + 10000 * (m3.toDigit : Int) := by
  simp only [encode, Instr.opcode, Instr.modes, modeDigits, Int.ofNat_eq_natCast]
  push_cast
  ring

@[simp] theorem AsmOperand.raw_literal (ls : Labels) (v : Word) : (AsmOperand.immediate (.lit v)).raw ls = some v := rfl

/-! ### The statements about fetch, operands and expansions -/

/-- Settles O11: the address check of the fetch fails, with no word to record. -/
theorem fetchOutsideMemoryFaults : Obligations.FetchOutsideMemoryFaults :=
  fun _ hlive => ⟨fun hneg => step_of_fetch_fault hlive (addrFault_negative hneg),
    fun _ hsize hn hnonneg => step_of_fetch_fault hlive (addrFault_limit hsize hn hnonneg)⟩

/-- Settles O43: an Immediate operand has no effective address, and any other fails exactly by a negative one. -/
theorem readOperandByMode : Obligations.ReadOperandByMode := by
  intro s i raw hdefault hptr hraw
  obtain rfl : s.raw i = raw := hraw
  refine ⟨?_,
    readParam_nonneg (m := .position) hdefault hptr (by decide), readParam_negative (m := .position) hdefault hptr (by decide),
    readParam_nonneg (m := .relative) hdefault hptr (by decide), readParam_negative (m := .relative) hdefault hptr (by decide)⟩
  rw [readParam_eq, paramFault_default hdefault hptr, State.effFault, checked_none, State.operand]

/-- Settles O44: a write operand is an effective address, and fails exactly by a negative one. -/
theorem writeAddressByMode : Obligations.WriteAddressByMode := by
  intro s j raw hdefault hptr hraw
  obtain rfl : s.raw j = raw := hraw
  exact ⟨
    writeParam_nonneg (d := .position) hdefault hptr (by decide), writeParam_negative (d := .position) hdefault hptr (by decide),
    writeParam_nonneg (d := .relative) hdefault hptr (by decide), writeParam_negative (d := .relative) hdefault hptr (by decide)⟩

/-- Settles O42: the destination mode is resolved first, and Immediate is none. -/
theorem illFormedInstructionFaults : Obligations.IllFormedInstructionFaults := by
  intro i s h
  have hwrite : i.writeMode = some .immediate := by simpa [Instr.wellFormed] using h
  cases i with
  | add m1 m2 m3 | mul m1 m2 m3 | lessThan m1 m2 m3 | equals m1 m2 m3 =>
    obtain rfl : m3 = .immediate := Option.some.inj hwrite
    simp only [exec, execAdd, execMul, execLessThan, execEquals]
    exact writeResult_immediate m1 m2 s _
  | input m1 =>
    obtain rfl : m1 = .immediate := Option.some.inj hwrite
    exact execInput_immediate s
  | output | jumpIfTrue | jumpIfFalse | adjustRelativeBase | halt => cases hwrite

/-- Settles O58: the two cells are a jump-if-false on the value 1, which is not taken, and no check fails. -/
theorem nopOnlyAdvances : Obligations.NopOnlyAdvances := by
  intro s hdefault hlive hptr hword hcond
  have hfetch : s.fetches (.jumpIfFalse .immediate .immediate) := by
    refine ⟨addrFault_eq_none.1 (addrFault_default (i := none) hdefault hptr), ?_⟩
    rw [hword, hdefault]
    decide
  have hv1 : s.operand 1 .immediate = 1 := by
    rw [State.operand, State.raw, ← hcond, Nat.cast_one, Int.toNat_add hptr zero_le_one]
    rfl
  rw [step_of_fetches hlive hfetch, exec, execJumpIfFalse, jumpWhen_eq, hv1]
  simp [paramFault_default hdefault hptr, State.effFault, State.advanceFault, wordFault_default hdefault, isZero, State.advance]

/-- Settles O57: the operands of each expansion have raw values, and its instruction is ill formed only when `mov` writes to an
Immediate operand. -/
theorem pseudoInstructionsExpand : Obligations.PseudoInstructionsExpand := by
  intro ls t s d a b ha hb
  refine ⟨?_, fun c hc hd => ?_, fun hd => ?_, rfl⟩
  · rw [AsmItem.cells, assembleOp_wellFormed (raws := [1, a]) rfl (by simp [allSome, ha]) rfl rfl, encode_jumpIfTrue]
    rfl
  · rw [AsmItem.cells, assembleOp_wellFormed (raws := [b, 0, c]) rfl (by simp [allSome, hb, hc])
      (by simpa [Instr.wellFormed, Instr.writeMode] using hd) rfl, encode_add, add_right_comm]
    rfl
  · exact assembleOp_illFormed rfl (by simp [Instr.wellFormed, Instr.writeMode, hd])

end Sys2Proof.Machine
end

section
/-! PROOFS. The program text format as a grammar (30_encoding.md R96, R97): what each function of the parser accepts, from one
digit up to the comma-separated line. -/

namespace Sys2Proof.Machine

/-! ### Blanks -/

theorem trimStart_eq_dropWhile (cs : List Char) : trimStart cs = cs.dropWhile isBlank := by
  induction cs with
  | nil => rfl
  | cons c cs ih => simp only [trimStart, List.dropWhile_cons, ih]

theorem trim_eq (cs : List Char) : trim cs = (cs.dropWhile isBlank).rdropWhile isBlank := by
  rw [trim, trimStart_eq_dropWhile, trimStart_eq_dropWhile, List.rdropWhile]

/-- A text is its trimmed text between blanks. -/
theorem exists_blanks_trim (cs : List Char) :
    ∃ l r, (∀ c ∈ l, isBlank c = true) ∧ (∀ c ∈ r, isBlank c = true) ∧ cs = l ++ trim cs ++ r := by
  refine ⟨cs.takeWhile isBlank, (cs.dropWhile isBlank).rtakeWhile isBlank, fun c => List.mem_takeWhile_imp,
    fun c => List.mem_rtakeWhile_imp, ?_⟩
  rw [trim_eq, List.append_assoc, List.rdropWhile_append_rtakeWhile, List.takeWhile_append_dropWhile]

theorem trim_cons_blank {c : Char} (h : isBlank c = true) (cs : List Char) : trim (c :: cs) = trim cs := by
  rw [trim_eq, List.dropWhile_cons_of_pos h, ← trim_eq]

theorem trim_concat_blank {c : Char} (h : isBlank c = true) (cs : List Char) : trim (cs ++ [c]) = trim cs := by
  rw [trim_eq, trim_eq, List.dropWhile_append]
  split
  case isTrue hnil => simp [List.isEmpty_iff.1 hnil, h]
  case isFalse => exact List.rdropWhile_concat_pos _ _ _ h

theorem trim_eq_self {cs : List Char} (h : ∀ c ∈ cs, isBlank c = false) : trim cs = cs := by
  rw [trim_eq, List.dropWhile_eq_self_iff.2, List.rdropWhile_eq_self_iff.2] <;> simp [h]

/-- What does not depend on one blank before or after a text does not depend on any blanks around it. -/
theorem eq_between_blanks {β : Type} {f : List Char → β} (hcons : ∀ c cs, isBlank c = true → f (c :: cs) = f cs)
    (hconcat : ∀ c cs, isBlank c = true → f (cs ++ [c]) = f cs) {l r : List Char} (hl : ∀ c ∈ l, isBlank c = true)
    (hr : ∀ c ∈ r, isBlank c = true) (cs : List Char) : f (l ++ cs ++ r) = f cs := by
  induction l with
  | nil =>
    induction r using List.reverseRecOn with
    | nil => simp
    | append_singleton r c ih =>
      rw [← List.append_assoc, hconcat c _ (hr c (by simp))]
      exact ih fun c hc => hr c (by simp [hc])
  | cons c l ih =>
    exact (hcons c _ (hl c (by simp))).trans (ih fun c hc => hl c (by simp [hc]))

/-! ### Digits and integers -/

/-- The character of a digit. -/
def digitChar (d : Fin 10) : Char :=
  Char.ofNat (48 + d.val)

/-- The value of digits read after a value `acc`. -/
def decimalFrom (acc : Int) (ds : List (Fin 10)) : Int :=
  ds.foldl (fun a d => 10 * a + (d.val : Int)) acc

/-- The characters of an optional sign (`true` for `-`). -/
def signChars : Option Bool → List Char
  | none => []
  | some false => ['+']
  | some true => ['-']

/-- The value of digits after an optional sign. -/
def signedValue (sign : Option Bool) (ds : List (Fin 10)) : Int :=
  if sign = some true then -decimalFrom 0 ds else decimalFrom 0 ds

theorem TokenText.chars_eq (t : TokenText) :
    t.chars = t.left ++ (signChars t.sign ++ t.digits.map digitChar) ++ t.right := by
  rw [← List.append_assoc]
  rfl

theorem digitValue_digitChar (d : Fin 10) : digitValue (digitChar d) = some d.val := by
  revert d; decide

theorem isBlank_digitChar (d : Fin 10) : isBlank (digitChar d) = false := by
  revert d; decide

theorem digitChar_ne (d : Fin 10) : digitChar d ≠ '+' ∧ digitChar d ≠ '-' ∧ digitChar d ≠ ',' := by
  revert d; decide

theorem exists_digitChar {c : Char} {n : Nat} (h : digitValue c = some n) : ∃ d : Fin 10, c = digitChar d := by
  unfold digitValue at h
  split at h
  case isTrue hc => exact ⟨⟨c.toNat - 48, by omega⟩, by simp [digitChar, Nat.add_sub_cancel' hc.1]⟩
  case isFalse => cases h

theorem exists_digitChars {acc n : Nat} {cs : List Char} (h : parseDigits acc cs = some n) :
    ∃ ds : List (Fin 10), cs = ds.map digitChar := by
  induction cs generalizing acc with
  | nil => exact ⟨[], rfl⟩
  | cons c cs ih =>
    unfold parseDigits at h
    split at h
    next k hk =>
      obtain ⟨d, rfl⟩ := exists_digitChar hk
      obtain ⟨ds, rfl⟩ := ih h
      exact ⟨d :: ds, rfl⟩
    next => cases h

/-- Digits read after `acc` give their decimal value, leading zeros included (R97). -/
theorem parseDigits_digitChars (acc : Nat) (ds : List (Fin 10)) :
    ∃ n : Nat, parseDigits acc (ds.map digitChar) = some n ∧ (n : Int) = decimalFrom acc ds := by
  induction ds generalizing acc with
  | nil => exact ⟨acc, rfl, rfl⟩
  | cons d ds ih =>
    obtain ⟨n, hn, hdecimal⟩ := ih (acc * 10 + d.val)
    refine ⟨n, by simp only [List.map_cons, parseDigits, digitValue_digitChar, hn], hdecimal.trans ?_⟩
    simp [decimalFrom, mul_comm]

/-- `[0-9]+`. -/
theorem parseNat_eq_some {cs : List Char} {n : Nat} :
    parseNat cs = some n ↔ ∃ ds : List (Fin 10), ds ≠ [] ∧ cs = ds.map digitChar ∧ (n : Int) = decimalFrom 0 ds := by
  cases cs with
  | nil => simp [parseNat]
  | cons c cs =>
    rw [parseNat]
    constructor
    · intro h
      obtain ⟨ds, hds⟩ := exists_digitChars h
      obtain ⟨m, hm, hdecimal⟩ := parseDigits_digitChars 0 ds
      rw [← hds, h] at hm
      cases hm
      exact ⟨ds, fun hnil => by simp [hnil] at hds, hds, hdecimal⟩
    · rintro ⟨ds, -, hds, hn⟩
      obtain ⟨m, hm, hdecimal⟩ := parseDigits_digitChars 0 ds
      rw [hds, hm, Int.ofNat.inj (hdecimal.trans hn.symm)]

/-- A natural read as an integer, and a function of it (R97's sign). -/
theorem map_parseNat_eq_some {f : Int → Int} {cs : List Char} {v : Int} :
    (parseNat cs : Option Int).map f = some v ↔
      ∃ ds : List (Fin 10), ds ≠ [] ∧ cs = ds.map digitChar ∧ v = f (decimalFrom 0 ds) := by
  constructor
  · intro h
    simp only [Option.map_eq_some_iff, Option.bind_eq_bind, Option.bind_eq_some_iff, Option.pure_def, Option.some.injEq] at h
    obtain ⟨_, ⟨n, hn, rfl⟩, rfl⟩ := h
    obtain ⟨ds, hne, hcs, hvalue⟩ := parseNat_eq_some.1 hn
    exact ⟨ds, hne, hcs, congrArg f hvalue⟩
  · rintro ⟨ds, hne, rfl, rfl⟩
    obtain ⟨n, -, hn⟩ := parseDigits_digitChars 0 ds
    simp [parseNat_eq_some.2 ⟨ds, hne, rfl, hn⟩, hn]

theorem parseInteger_digitChar (d : Fin 10) (cs : List Char) :
    parseInteger (digitChar d :: cs) = (parseNat (digitChar d :: cs) : Option Int).map fun n => n := by
  obtain ⟨hplus, hminus, -⟩ := digitChar_ne d
  unfold parseInteger
  split
  next h => exact absurd (List.cons.inj h).1 hplus
  next h => exact absurd (List.cons.inj h).1 hminus
  next => rfl

/-- `[+-]?[0-9]+` (R97). -/
theorem parseInteger_eq_some {cs : List Char} {v : Int} :
    parseInteger cs = some v ↔
      ∃ sign ds, ds ≠ [] ∧ cs = signChars sign ++ ds.map digitChar ∧ v = signedValue sign ds := by
  constructor
  · intro h
    unfold parseInteger at h
    split at h <;> obtain ⟨ds, hne, rfl, rfl⟩ := map_parseNat_eq_some.1 h
    · exact ⟨some false, ds, hne, rfl, rfl⟩
    · exact ⟨some true, ds, hne, rfl, rfl⟩
    · exact ⟨none, ds, hne, rfl, rfl⟩
  · rintro ⟨sign, ds, hne, rfl, rfl⟩
    match sign with
    | some false => exact map_parseNat_eq_some.2 ⟨ds, hne, rfl, rfl⟩
    | some true => exact map_parseNat_eq_some.2 ⟨ds, hne, rfl, rfl⟩
    | none =>
      obtain ⟨d, ds, rfl⟩ := List.exists_cons_of_ne_nil hne
      exact (parseInteger_digitChar d _).trans (map_parseNat_eq_some.2 ⟨d :: ds, hne, rfl, rfl⟩)

/-! ### Tokens -/

theorem signChars_cases {sign : Option Bool} {c : Char} (h : c ∈ signChars sign) : c = '+' ∨ c = '-' := by
  match sign with
  | none => cases h
  | some false => exact .inl (List.mem_singleton.1 h)
  | some true => exact .inr (List.mem_singleton.1 h)

theorem trim_chars {t : TokenText} (h : t.ok) : trim t.chars = signChars t.sign ++ t.digits.map digitChar := by
  obtain ⟨hl, hr, -⟩ := h
  rw [t.chars_eq, eq_between_blanks (fun _ cs hc => trim_cons_blank hc cs) (fun _ cs hc => trim_concat_blank hc cs) hl hr]
  refine trim_eq_self fun c hc => ?_
  rcases List.mem_append.1 hc with hc | hc
  · rcases signChars_cases hc with rfl | rfl <;> decide
  · obtain ⟨d, -, rfl⟩ := List.mem_map.1 hc
    exact isBlank_digitChar d

/-- A text is a token exactly when it is a token of R97 written out, with a value of the word model. -/
theorem parseToken_eq_some {p : Params} {cs : List Char} {v : Word} :
    parseToken p cs = some v ↔ wordOk p v = true ∧ ∃ t : TokenText, t.ok ∧ cs = t.chars ∧ v = t.value := by
  have hinteger : parseInteger (trim cs) = some v ↔ ∃ t : TokenText, t.ok ∧ cs = t.chars ∧ v = t.value := by
    rw [parseInteger_eq_some]
    constructor
    · rintro ⟨sign, ds, hne, htrim, hv⟩
      obtain ⟨l, r, hl, hr, hcs⟩ := exists_blanks_trim cs
      exact ⟨⟨l, sign, ds, r⟩, ⟨hl, hr, hne⟩, by rw [TokenText.chars_eq, ← htrim, ← hcs], hv⟩
    · rintro ⟨t, hok, rfl, hv⟩
      obtain ⟨-, -, hne⟩ := id hok
      exact ⟨t.sign, t.digits, hne, trim_chars hok, hv⟩
  rw [← hinteger, parseToken]
  cases parseInteger (trim cs) with
  | none => simp
  | some u =>
    simp only [Option.ite_none_right_eq_some, Option.some.injEq]
    exact and_congr_left fun h => by rw [h]

/-- The pieces that parse are tokens written out. -/
theorem exists_tokens {p : Params} {ts : List (List Char)} {P : List Word} (h : parseTokens p ts = some P) :
    ∃ us : List TokenText, (∀ u ∈ us, u.ok) ∧ ts = us.map TokenText.chars ∧ P = us.map TokenText.value ∧
      ∀ v ∈ P, wordOk p v = true := by
  induction ts generalizing P with
  | nil => cases h; exact ⟨[], by simp⟩
  | cons t ts ih =>
    unfold parseTokens at h
    split at h
    next v vs hv hvs =>
      cases h
      obtain ⟨hword, u, hu, rfl, rfl⟩ := parseToken_eq_some.1 hv
      obtain ⟨us, hus, rfl, rfl, hwords⟩ := ih hvs
      exact ⟨u :: us, List.forall_mem_cons.2 ⟨hu, hus⟩, rfl, rfl, List.forall_mem_cons.2 ⟨hword, hwords⟩⟩
    next => cases h

theorem parseTokens_chars {p : Params} {us : List TokenText} (hok : ∀ u ∈ us, u.ok)
    (hwords : ∀ v ∈ us.map TokenText.value, wordOk p v = true) :
    parseTokens p (us.map TokenText.chars) = some (us.map TokenText.value) := by
  induction us with
  | nil => rfl
  | cons u us ih =>
    have hu : parseToken p u.chars = some u.value :=
      parseToken_eq_some.2 ⟨hwords _ (by simp), u, hok u (by simp), rfl, rfl⟩
    simp only [List.map_cons, parseTokens, hu, ih (fun u h => hok u (by simp [h])) (fun v h => hwords v (by simp_all))]

/-! ### The line -/

theorem splitAtChar_eq_splitOn (sep : Char) (cs : List Char) : splitAtChar sep cs = cs.splitOn sep := by
  induction cs with
  | nil => rfl
  | cons c cs ih =>
    rw [splitAtChar, ih, List.splitOn_cons_eq_if_modifyHead]
    cases h : cs.splitOn sep with
    | nil => exact absurd h (List.splitOn_ne_nil sep cs)
    | cons t ts => simp

theorem ne_comma_of_isBlank {c : Char} (h : isBlank c = true) : c ≠ ',' := by
  rintro rfl
  cases h

/-- A blank before the first separator stays in the first piece, where it is trimmed. -/
theorem parseTokens_cons_blank (p : Params) {c : Char} (h : isBlank c = true) (cs : List Char) :
    parseTokens p ((c :: cs).splitOn ',') = parseTokens p (cs.splitOn ',') := by
  rw [List.splitOn_cons_eq_if_modifyHead, beq_eq_false_iff_ne.2 (ne_comma_of_isBlank h)]
  cases cs.splitOn ',' with
  | nil => rfl
  | cons t ts => simp [parseTokens, parseToken, trim_cons_blank h]

/-- A character after a line goes to the last piece. -/
theorem splitOn_concat {sep c : Char} (h : c ≠ sep) (cs : List Char) :
    ∃ init last, cs.splitOn sep = init ++ [last] ∧ (cs ++ [c]).splitOn sep = init ++ [last ++ [c]] := by
  induction cs with
  | nil => exact ⟨[], [], by simp [List.splitOn_cons_eq_if_modifyHead, h]⟩
  | cons a cs ih =>
    obtain ⟨init, last, hinit, hconcat⟩ := ih
    rw [List.cons_append, List.splitOn_cons_eq_if_modifyHead, List.splitOn_cons_eq_if_modifyHead, hinit, hconcat]
    split
    · exact ⟨[] :: init, last, rfl, rfl⟩
    · cases init with
      | nil => exact ⟨[], a :: last, rfl, rfl⟩
      | cons t init => exact ⟨(a :: t) :: init, last, rfl, rfl⟩

theorem parseTokens_concat_blank (p : Params) {c : Char} (h : isBlank c = true) (cs : List Char) :
    parseTokens p ((cs ++ [c]).splitOn ',') = parseTokens p (cs.splitOn ',') := by
  obtain ⟨init, last, hinit, hconcat⟩ := splitOn_concat (ne_comma_of_isBlank h) cs
  rw [hinit, hconcat]
  clear hinit hconcat
  induction init with
  | nil => simp [parseTokens, parseToken, trim_concat_blank h]
  | cons t init ih => simp [parseTokens, ih]

theorem comma_notMem_chars {t : TokenText} (h : t.ok) : ',' ∉ t.chars := by
  obtain ⟨hl, hr, -⟩ := h
  rw [t.chars_eq]
  simp only [List.mem_append, not_or]
  refine ⟨⟨fun hc => ?_, fun hc => ?_, fun hc => ?_⟩, fun hc => ?_⟩
  · exact ne_comma_of_isBlank (hl _ hc) rfl
  · rcases signChars_cases hc with h | h <;> cases h
  · obtain ⟨d, -, hd⟩ := List.mem_map.1 hc
    obtain ⟨-, -, hcomma⟩ := digitChar_ne d
    exact hcomma hd
  · exact ne_comma_of_isBlank (hr _ hc) rfl

/-- Trimming the line does not matter. -/
theorem parseProgram_eq (p : Params) (text : List Char) : parseProgram p text = parseTokens p (text.splitOn ',') := by
  obtain ⟨l, r, hl, hr, htext⟩ := exists_blanks_trim text
  rw [parseProgram, splitAtChar_eq_splitOn]
  conv_rhs => rw [htext]
  exact (eq_between_blanks (f := fun cs => parseTokens p (cs.splitOn ',')) (fun _ cs hc => parseTokens_cons_blank p hc cs)
    (fun _ cs hc => parseTokens_concat_blank p hc cs) hl hr _).symm

/-- Settles O56: the pieces of a line between its commas are the tokens it is written from, because no token contains a comma, and
each piece parses exactly as the tokens of R97 do. -/
theorem programTextGrammar : Obligations.ProgramTextGrammar := by
  intro p text
  refine ⟨fun P => ?_, fun h => by rw [loadText, h]; rfl⟩
  rw [parseProgram_eq]
  constructor
  · intro h
    obtain ⟨ts, hok, hpieces, hP, hwords⟩ := exists_tokens h
    refine ⟨ts, ?_, hok, ?_, hP, hwords⟩
    · rintro rfl
      exact List.splitOn_ne_nil _ _ hpieces
    · rw [← hpieces, List.intercalate_splitOn]
  · rintro ⟨ts, hne, hok, rfl, rfl, hwords⟩
    rw [List.splitOn_intercalate ',' (by simpa using fun t ht => comma_notMem_chars (hok t ht)) (by simpa using hne)]
    exact parseTokens_chars hok hwords

end Sys2Proof.Machine
end

section
/-! PROOFS. The arithmetic instructions (40_arithmetic.md R120 to R122): the word of a three-parameter instruction, and the two
outcomes of its execution. -/

namespace Sys2Proof

/-! ### The word of a three-parameter instruction -/

theorem encode_threeModes {i : Instr} {m1 m2 m3 : Mode} (hmodes : i.modes = [m1, m2, m3]) :
    encode i = (i.opcode : Int) + 100 * (m1.toDigit : Int) + 1000 * (m2.toDigit : Int) + 10000 * (m3.toDigit : Int) := by
  simp only [encode, hmodes, modeDigits, Int.ofNat_eq_natCast]
  push_cast
  ring

/-- The word `C B A` and the opcode decodes to the instruction unless it writes to an Immediate operand (R88, R92). -/
theorem decode_threeModes (x : ExtraDigits) {i : Instr} {m1 m2 m3 : Mode} (hmodes : i.modes = [m1, m2, m3])
    (hwrite : i.writeMode = some m3) (h3 : m3 ≠ .immediate) :
    decode x ((i.opcode : Int) + 100 * (m1.toDigit : Int) + 1000 * (m2.toDigit : Int) + 10000 * (m3.toDigit : Int)) = .ok i := by
  have hwf : i.wellFormed = true := by simpa [Instr.wellFormed, hwrite] using h3
  rw [← encode_threeModes hmodes, decode_encode x hwf]

end Sys2Proof

namespace Sys2Proof.Machine

/-! ### The two outcomes of an execution -/

/-- An execution that settles the checks `c` completes when none raises, and otherwise takes the first that does. -/
theorem settled_outcomes {s t : State} {c : Option Raise} {o : Host.Outcome State Fault Refusal} (h : o = settled s c t) :
    (c = none → o = .next t) ∧ ∀ r, c = some r → o = .next (s.takeFault r) := by
  constructor
  · rintro rfl
    rw [h, settled_none]
  · rintro r rfl
    rw [h, settled_some]

/-! ### The statements about add and mul -/

/-- Settles O32: its word is its encoding, and its execution settles the checks of R214, that of the sum after the operands'. -/
theorem addRule : Obligations.AddRule := by
  rintro s m1 m2 m3 _ _ h3 rfl rfl
  exact ⟨fun x => decode_threeModes (i := .add m1 m2 m3) x rfl rfl h3, settled_outcomes (execAdd_eq m1 m2 h3 s)⟩

/-- Settles O33: as O32, with the check of the exact product in the place of the sum's. -/
theorem mulRule : Obligations.MulRule := by
  rintro s m1 m2 m3 _ _ h3 rfl rfl
  exact ⟨fun x => decode_threeModes (i := .mul m1 m2 m3) x rfl rfl h3, settled_outcomes (execMul_eq m1 m2 h3 s)⟩

end Sys2Proof.Machine
end

section
/-! PROOFS. The queues (10_state.md R28; 41_io.md R130 to R132; 50_execution_and_host.md R179, R180): the word of a one-parameter
instruction, the execution of input and output, and what steps and the host do to `InQ` and `OutQ`. -/

namespace Sys2Proof

/-! ### The word of a one-parameter instruction -/

theorem encode_oneMode {i : Instr} {m1 : Mode} (hmodes : i.modes = [m1]) :
    encode i = (i.opcode : Int) + 100 * (m1.toDigit : Int) := by
  simp [encode, hmodes, modeDigits]

/-- The word `A` and the opcode decodes to the instruction, where that is well-formed (R88, R92). -/
theorem decode_oneMode (x : ExtraDigits) {i : Instr} {m1 : Mode} (hmodes : i.modes = [m1]) (hwf : i.wellFormed = true) :
    decode x ((i.opcode : Int) + 100 * (m1.toDigit : Int)) = .ok i := by
  rw [← encode_oneMode hmodes, decode_encode x hwf]

theorem Instr.wellFormed_input {m1 : Mode} (h1 : m1 ≠ .immediate) : (Instr.input m1).wellFormed = true := by
  simpa [Instr.wellFormed, Instr.writeMode] using h1

end Sys2Proof

namespace Sys2Proof.Machine

/-! ### The execution of input, by the state of the input queue -/

section
variable {s : State} {m1 : Mode} (h1 : m1 ≠ .immediate) (hdest : s.paramFault 1 m1 = none)
include h1 hdest

/-- Without data an input whose destination passes its checks suspends (R130). -/
theorem execInput_nil (hq : s.inQ = []) : execInput m1 s = .next s.suspend := by
  rw [execInput_eq h1, hdest, hq, settled_none]

/-- With data it has only the `ptr` advance left to check. -/
theorem execInput_cons {v : Word} {q : List Word} (hq : s.inQ = v :: q) :
    execInput m1 s =
      settled s (s.advanceFault 2) (((s.setInQ q).store (s.effAddr 1 m1).toNat v).advance (s.ptr + 2)) := by
  rw [execInput_eq h1, hdest, hq, settled_none]
  rfl

end

/-! ### The queues under a step and the host's queue operations -/

/-- A step leaves `InQ`, or is a completed input that removes its head. -/
theorem step_inQ_cases {s t : State} (h : step s = .next t) :
    t.inQ = s.inQ ∨ ∃ m1 v, s.live ∧ s.fetches (.input m1) ∧ s.inQ = v :: t.inQ ∧ t.run = .running := by
  rcases step_instrEffect h with ⟨-, rfl⟩ | ⟨hlive, ⟨r, rfl⟩ | ⟨i, hi, heffect⟩⟩
  · exact .inl rfl
  · exact .inl rfl
  · rcases heffect.inQ_cases with hsame | ⟨m1, v, rfl, hq, hrun⟩
    · exact .inl hsame
    · exact .inr ⟨m1, v, hlive, hi, hq, hrun⟩

/-- A step leaves `OutQ`, or is a completed output that appends its operand. -/
theorem step_outQ_cases {s t : State} (h : step s = .next t) :
    t.outQ = s.outQ ∨ ∃ m1, s.live ∧ s.fetches (.output m1) ∧ t.outQ = s.outQ ++ [s.operand 1 m1] ∧ t.run = .running := by
  rcases step_instrEffect h with ⟨-, rfl⟩ | ⟨hlive, ⟨r, rfl⟩ | ⟨i, hi, heffect⟩⟩
  · exact .inl rfl
  · exact .inl rfl
  · rcases heffect.outQ_cases with hsame | ⟨m1, rfl, hq, hrun⟩
    · exact .inl hsame
    · exact .inr ⟨m1, hlive, hi, hq, hrun⟩

/-- `push_input` appends its value, or is refused and changes nothing (R179). -/
theorem pushInput_cases (v : Word) (s : State) :
    pushInput v s = (true, s.withInputs [v]) ∨ pushInput v s = (false, s) := by
  unfold pushInput
  split
  · exact .inl rfl
  · exact .inr rfl

theorem popOutput_nil {s : State} (hq : s.outQ = []) : popOutput s = (none, s) := by
  rw [popOutput, hq]

theorem popOutput_cons {s : State} {v : Word} {q : List Word} (hq : s.outQ = v :: q) :
    popOutput s = (some v, { s with outQ := q }) := by
  rw [popOutput, hq]

/-! ### The statements about input, output and the queues -/

/-- Settles O19: the effects that change a queue are those of input and output, and the host's queue operations by their cases. -/
theorem queuesAreFifo : Obligations.QueuesAreFifo := by
  refine ⟨fun s t h => ⟨step_inQ_cases h, step_outQ_cases h⟩, fun v s => ?_, fun s => ⟨popOutput_nil, fun v q => popOutput_cons⟩⟩
  rcases pushInput_cases v s with h | h <;> rw [h]
  · exact ⟨.inr rfl, rfl⟩
  · exact ⟨.inl rfl, rfl⟩

/-- Settles O36: the destination is settled first; then `InQ` is empty, or holds the value of an input that settles the `ptr`
advance. -/
theorem inputRule : Obligations.InputRule := by
  intro s m1 h1
  refine ⟨fun x => decode_oneMode (i := .input m1) x rfl (Instr.wellFormed_input h1),
    (settled_outcomes (execInput_eq h1 s)).2, execInput_nil h1, fun v q hdest hq => ?_, fun v q r hdest hq => ?_⟩
  · exact (settled_outcomes (execInput_cons h1 hdest hq)).1
  · exact (settled_outcomes (execInput_cons h1 hdest hq)).2 r

/-- Settles O37: its word is its encoding, and its execution settles the operand's checks, `QueueOverflow` and the `ptr` advance. -/
theorem outputRule : Obligations.OutputRule := by
  rintro s m1 _ rfl
  exact ⟨fun x => decode_oneMode (i := .output m1) x rfl rfl, settled_outcomes (execOutput_eq m1 s)⟩

end Sys2Proof.Machine
end

section
/-! PROOFS. The conditional jumps (42_jumps.md R140, R141): the word of a two-parameter instruction, and the execution of a jump
by its operand checks and its condition. -/

namespace Sys2Proof

/-! ### The word of a two-parameter instruction -/

theorem encode_twoModes {i : Instr} {m1 m2 : Mode} (hmodes : i.modes = [m1, m2]) :
    encode i = (i.opcode : Int) + 100 * (m1.toDigit : Int) + 1000 * (m2.toDigit : Int) := by
  simp only [encode, hmodes, modeDigits, Int.ofNat_eq_natCast]
  push_cast
  ring

/-- The word `B A` and the opcode decodes to the instruction, where that is well-formed (R88, R92). -/
theorem decode_twoModes (x : ExtraDigits) {i : Instr} {m1 m2 : Mode} (hmodes : i.modes = [m1, m2])
    (hwf : i.wellFormed = true) :
    decode x ((i.opcode : Int) + 100 * (m1.toDigit : Int) + 1000 * (m2.toDigit : Int)) = .ok i := by
  rw [← encode_twoModes hmodes, decode_encode x hwf]

end Sys2Proof

namespace Sys2Proof.Machine

/-! ### The execution of a conditional jump, by its checks and its condition -/

/-- Later checks do not replace a fault of the earlier ones (R214). -/
theorem firstFault_append_of_some {cs : List (Option Raise)} {r : Raise} (h : firstFault cs = some r)
    (ds : List (Option Raise)) : firstFault (cs ++ ds) = some r := by
  induction cs with
  | nil => cases h
  | cons c cs ih =>
    cases c with
    | none => exact ih h
    | some r' => exact h

theorem isNonzero_eq_true {v : Word} : isNonzero v = true ↔ v ≠ 0 := decide_eq_true_iff

theorem isNonzero_eq_false {v : Word} : isNonzero v = false ↔ v = 0 := decide_eq_false_iff_not.trans not_not

theorem isZero_eq_true {v : Word} : isZero v = true ↔ v = 0 := decide_eq_true_iff

theorem isZero_eq_false {v : Word} : isZero v = false ↔ v ≠ 0 := decide_eq_false_iff_not

section
variable {s : State} {m1 m2 : Mode} {taken : Word → Bool}

/-- An operand fault is raised whether or not the condition would take the jump. -/
theorem jumpWhen_operandFault {r : Raise} (h : firstFault [s.paramFault 1 m1, s.paramFault 2 m2] = some r) :
    jumpWhen m1 m2 taken s = .next (s.takeFault r) := by
  have hadvance : firstFault [s.paramFault 1 m1, s.paramFault 2 m2, s.advanceFault 3] = some r :=
    firstFault_append_of_some h [s.advanceFault 3]
  rw [jumpWhen_eq, h, hadvance, settled_some, settled_some, ite_self]

variable (h1 : s.paramFault 1 m1 = none) (h2 : s.paramFault 2 m2 = none)
include h1 h2

/-- A taken jump has no check left: its target is any word (R140, R141). -/
theorem jumpWhen_taken (ht : taken (s.operand 1 m1) = true) :
    jumpWhen m1 m2 taken s = .next (s.advance (s.operand 2 m2)) := by
  rw [jumpWhen_eq, if_pos ht, h1, h2, firstFault_none, firstFault_none, firstFault_nil, settled_none]

/-- A jump not taken has only the `ptr` advance left to check. -/
theorem jumpWhen_notTaken (ht : taken (s.operand 1 m1) = false) :
    jumpWhen m1 m2 taken s = settled s (s.advanceFault 3) (s.advance (s.ptr + 3)) := by
  rw [jumpWhen_eq, if_neg (ne_true_of_eq_false ht), h1, h2, firstFault_none, firstFault_none]
  cases s.advanceFault 3 <;> rfl

end

/-- What a conditional jump does, in the order of its checks (R140, R141, R214). -/
theorem jumpWhen_outcomes (s : State) (m1 m2 : Mode) (taken : Word → Bool) :
    (∀ r, firstFault [s.paramFault 1 m1, s.paramFault 2 m2] = some r → jumpWhen m1 m2 taken s = .next (s.takeFault r)) ∧
    (s.paramFault 1 m1 = none → s.paramFault 2 m2 = none →
      (taken (s.operand 1 m1) = true → jumpWhen m1 m2 taken s = .next (s.advance (s.operand 2 m2))) ∧
      (taken (s.operand 1 m1) = false → s.advanceFault 3 = none →
        jumpWhen m1 m2 taken s = .next (s.advance (s.ptr + 3))) ∧
      (∀ r, taken (s.operand 1 m1) = false → s.advanceFault 3 = some r →
        jumpWhen m1 m2 taken s = .next (s.takeFault r))) := by
  refine ⟨fun r => jumpWhen_operandFault, fun h1 h2 => ⟨jumpWhen_taken h1 h2, fun ht => ?_, fun r ht => ?_⟩⟩
  · exact (settled_outcomes (jumpWhen_notTaken h1 h2 ht)).1
  · exact (settled_outcomes (jumpWhen_notTaken h1 h2 ht)).2 r

/-! ### The statements about the conditional jumps -/

/-- Settles O38: its word is its encoding, and its execution is a jump under the condition that `v1` is not 0. -/
theorem jumpIfTrueRule : Obligations.JumpIfTrueRule := by
  intro s m1 m2
  have houtcomes := jumpWhen_outcomes s m1 m2 isNonzero
  simp only [isNonzero_eq_true, isNonzero_eq_false] at houtcomes
  exact ⟨fun x => decode_twoModes (i := .jumpIfTrue m1 m2) x rfl rfl, houtcomes⟩

/-- Settles O39: as O38, under the condition that `v1` is 0. -/
theorem jumpIfFalseRule : Obligations.JumpIfFalseRule := by
  intro s m1 m2
  have houtcomes := jumpWhen_outcomes s m1 m2 isZero
  simp only [isZero_eq_true, isZero_eq_false] at houtcomes
  exact ⟨fun x => decode_twoModes (i := .jumpIfFalse m1 m2) x rfl rfl, houtcomes⟩

end Sys2Proof.Machine
end

section
/-! PROOFS. The comparisons (43_compare.md R150, R151): the execution of an instruction that writes whether a relation holds
between its operands. -/

namespace Sys2Proof.Machine

/-! ### The execution of a comparison -/

theorem boolWord_decide (p : Prop) [Decidable p] : boolWord (decide p) = if p then 1 else 0 := by
  simp [boolWord]

/-- A check that does not raise can be left out wherever it stands among the others. -/
theorem firstFault_append_none (cs ds : List (Option Raise)) : firstFault (cs ++ none :: ds) = firstFault (cs ++ ds) := by
  induction cs with
  | nil => rfl
  | cons c cs ih =>
    cases c with
    | none => exact ih
    | some r => rfl

/-- A comparison's result needs no check, since 1 and 0 are words in every word model. -/
theorem writeResult_compare (m1 m2 : Mode) {m3 : Mode} (h3 : m3 ≠ .immediate) (s : State) (rel : Word → Word → Prop)
    [DecidableRel rel] :
    writeResult m1 m2 m3 (fun v1 v2 => .ok (boolWord (decide (rel v1 v2)))) s =
      settled s (firstFault [s.paramFault 1 m1, s.paramFault 2 m2, s.paramFault 3 m3, s.advanceFault 4])
        ((s.store (s.effAddr 3 m3).toNat (if rel (s.operand 1 m1) (s.operand 2 m2) then 1 else 0)).advance (s.ptr + 4)) := by
  have hchecks : firstFault [s.paramFault 1 m1, s.paramFault 2 m2, s.paramFault 3 m3, none, s.advanceFault 4] =
      firstFault [s.paramFault 1 m1, s.paramFault 2 m2, s.paramFault 3 m3, s.advanceFault 4] :=
    firstFault_append_none [s.paramFault 1 m1, s.paramFault 2 m2, s.paramFault 3 m3] [s.advanceFault 4]
  rw [writeResult_eq m1 m2 h3 s _ none _ rfl, hchecks, boolWord_decide]

/-! ### The statements about less-than and equals -/

/-- Settles O34: its word is its encoding, and its execution writes the comparison of its operands by the order of the words. -/
theorem lessThanRule : Obligations.LessThanRule := by
  rintro s m1 m2 m3 _ _ h3 rfl rfl
  exact ⟨fun x => decode_threeModes (i := .lessThan m1 m2 m3) x rfl rfl h3,
    settled_outcomes (writeResult_compare m1 m2 h3 s (· < ·))⟩

/-- Settles O35: as O34, with the equality of the words in the place of their order. -/
theorem equalsRule : Obligations.EqualsRule := by
  rintro s m1 m2 m3 _ _ h3 rfl rfl
  exact ⟨fun x => decode_threeModes (i := .equals m1 m2 m3) x rfl rfl h3,
    settled_outcomes (writeResult_compare m1 m2 h3 s (· = ·))⟩

end Sys2Proof.Machine
end

section
/-! PROOFS. The relative base and halt (44_base_and_halt.md R160, R161): the words that decode to halt, and what the two
instructions do. -/

namespace Sys2Proof

/-! ### The words of halt -/

theorem Instr.wellFormed_halt : Instr.halt.wellFormed = true := rfl

theorem encode_halt : encode .halt = 99 := rfl

theorem decode_fault_eq_halt {w : Word} : decode .fault w = .ok .halt ↔ w = 99 := by
  rw [decodeIsInverseOfEncode, encode_halt]
  exact and_iff_right Instr.wellFormed_halt

/-- Halt has no mode digit, so its digits are the two of the opcode. -/
theorem decode_ignore_eq_halt {w : Word} : decode .ignore w = .ok .halt ↔ 0 ≤ w ∧ w % 100 = 99 := by
  rw [decodeIgnoringExtraDigits, encode_halt]
  exact and_iff_right Instr.wellFormed_halt

end Sys2Proof

namespace Sys2Proof.Machine

/-! ### The statements about adjust-relative-base and halt -/

/-- Settles O40: its word is its encoding, and its execution settles the operand's checks, that of the new base, and the `ptr`
advance. -/
theorem adjustRelativeBaseRule : Obligations.AdjustRelativeBaseRule := by
  rintro s m1 _ rfl
  exact ⟨fun x => decode_oneMode (i := .adjustRelativeBase m1) x rfl rfl, settled_outcomes (execAdjustRelativeBase_eq m1 s)⟩

/-- Settles O41: a word decodes to halt by its encoding, which is the opcode alone; and a halted machine is terminal. -/
theorem haltRule : Obligations.HaltRule :=
  ⟨fun _ => decode_fault_eq_halt, fun _ => decode_ignore_eq_halt, fun _ => ⟨rfl, step_halted rfl⟩⟩

end Sys2Proof.Machine
end

section
/-! PROOFS. The results of a step and what a step that does not complete leaves (50_execution_and_host.md R171 to R175;
60_exceptions.md R213, R215). -/

namespace Sys2Proof.Machine

section
variable {s t : State}

/-! ### The result of a step, by the run state it leaves -/

theorem State.stepResult_eq_continued : t.stepResult = .continued ↔ t.run = .running ∨ t.run = .ready := by
  cases h : t.run <;> simp [State.stepResult, h]

theorem State.stepResult_eq_halted : t.stepResult = .halted ↔ t.run = .halted := by
  cases h : t.run <;> simp [State.stepResult, h]

theorem State.stepResult_eq_ioWait : t.stepResult = .ioWait ↔ t.run = .ioWait := by
  cases h : t.run <;> simp [State.stepResult, h]

theorem State.stepResult_eq_fault {r : Option FaultRecord} : t.stepResult = .fault r ↔ t.run = .faulted ∧ t.fault = r := by
  cases h : t.run <;> simp [State.stepResult, h]

theorem stepped_of_step (h : step s = .next t) : s.stepped = t := by
  rw [State.stepped, h]

theorem hostStep_of_step (h : step s = .next t) : hostStep s = (t.stepResult, t) := by
  rw [hostStep, stepped_of_step h]

/-! ### The effects that do not complete -/

theorem Effect.of_faulted (h : Effect s t) (hrun : t.run = .faulted) : ∃ r, t = s.takeFault r := by
  cases h with
  | fault r => exact ⟨r, rfl⟩
  | write | input | output | jump | noJump | base | halt | suspend => cases hrun

theorem Effect.of_ioWait (h : Effect s t) (hrun : t.run = .ioWait) : s.inQ = [] ∧ t = s.suspend := by
  cases h with
  | suspend hq => exact ⟨hq, rfl⟩
  | write | input | output | jump | noJump | base | halt | fault => cases hrun

/-! ### The word and the opcode of a record -/

theorem State.currentWord_of_addrOk (h : addrOk s.params s.ptr = true) : s.currentWord = some (s.mem.read s.ptr.toNat) :=
  if_pos h

theorem State.currentWord_of_not_addrOk (h : addrOk s.params s.ptr = false) : s.currentWord = none :=
  if_neg (ne_true_of_eq_false h)

theorem opcodeOf_negative {w : Word} (h : w < 0) : opcodeOf w = none :=
  if_pos h

theorem opcodeOf_nonneg {w : Word} (h : 0 ≤ w) : opcodeOf w = some (w.toNat % 100) :=
  if_neg (not_lt.2 h)

theorem FaultRecord.opcode_of_word {r : FaultRecord} {w : Word} (h : r.word = some w) : r.opcode = opcodeOf w := by
  rw [FaultRecord.opcode, h, Option.bind_some]

theorem FaultRecord.opcode_of_no_word {r : FaultRecord} (h : r.word = none) : r.opcode = none := by
  rw [FaultRecord.opcode, h, Option.bind_none]

end

/-! ### The statements about the result of a step -/

/-- Settles O9: fetch and decode of a live machine succeed with that instruction. -/
theorem stepRunsTheDecodedInstruction : Obligations.StepRunsTheDecodedInstruction :=
  fun _ _ => step_of_fetches

/-- Settles O10: a terminal machine is its own next state, whose run state gives the result. -/
theorem terminalStepChangesNothing : Obligations.TerminalStepChangesNothing := by
  refine fun s => ⟨fun hrun => ⟨step_halted hrun, ?_⟩, fun hrun => ⟨step_faulted hrun, ?_⟩⟩
  · rw [hostStep_of_step (step_halted hrun), State.stepResult_eq_halted.2 hrun]
  · rw [hostStep_of_step (step_faulted hrun), State.stepResult_eq_fault.2 ⟨hrun, rfl⟩]

/-- Settles O13: the only effect that ends in `Faulted` is the taking of a fault, and the only one that ends in `IOWait` is the
suspension. -/
theorem failedStepChangesNothingElse : Obligations.FailedStepChangesNothingElse := by
  intro s t hlive h
  have heffect := step_effect hlive h
  refine ⟨fun hrun => ?_, fun hrun => (heffect.of_ioWait hrun).2⟩
  obtain ⟨r, rfl⟩ := heffect.of_faulted hrun
  exact ⟨⟨r.kind, s.ptr, s.currentWord, r.param, r.value⟩, rfl, rfl, State.currentWord_of_addrOk,
    State.currentWord_of_not_addrOk,
    fun w hw => ⟨fun hneg => (FaultRecord.opcode_of_word hw).trans (opcodeOf_negative hneg),
      fun hnonneg => (FaultRecord.opcode_of_word hw).trans (opcodeOf_nonneg hnonneg)⟩,
    FaultRecord.opcode_of_no_word⟩

/-- Settles O15: a step always answers, a live one never `Ready`, and each result is that of one run state (`Continue` of two). -/
theorem stepHasFourResults : Obligations.StepHasFourResults := by
  intro s
  have hready : s.live → s.stepped.run ≠ .ready := fun hlive => by
    rcases step_run_cases hlive (step_eq_stepped s) with hrun | ⟨-, hrun⟩ | ⟨m1, -, -, -, hrun⟩ | hrun <;> simp [hrun]
  exact ⟨s.stepped, step_eq_stepped s, rfl, State.stepResult_eq_continued, hready, State.stepResult_eq_halted,
    State.stepResult_eq_ioWait, fun _ => State.stepResult_eq_fault⟩

end Sys2Proof.Machine
end

section
/-! PROOFS. The host's input operations and queries (50_execution_and_host.md R176, R179, R181, R182): when values can be appended
to the input queue, and what `push_input`, `run`, `peek_memory` and `halted` do with them. -/

namespace Sys2Proof.Machine

/-! ### When values can be appended -/

theorem fits_eq_false {cap : Option Nat} {n : Nat} : fits cap n = false ↔ ∃ c, cap = some c ∧ c < n := by
  cases cap <;> simp [fits]

section
variable {s : State} {vs : List Word}

/-- Values are refused for want of room or for a value that is no word (R179). -/
theorem State.accepts_eq_false :
    s.accepts vs = false ↔
      (∃ c, s.params.inCap = some c ∧ c < s.inQ.length + vs.length) ∨ ∃ v ∈ vs, wordOk s.params v = false := by
  rw [State.accepts, Bool.and_eq_false_iff, fits_eq_false, List.all_eq_false]
  simp only [Bool.not_eq_true]

/-- A single word is taken by every queue within its capacity that is not full. -/
theorem State.Legal.accepts_word (h : s.Legal) {v : Word} (hfull : s.params.inCap ≠ some s.inQ.length)
    (hv : wordOk s.params v = true) : s.accepts [v] = true := by
  simp [State.accepts, fits_succ h.inCap hfull, hv]

theorem pushInput_of_accepts {v : Word} (h : s.accepts [v] = true) : pushInput v s = (true, s.withInputs [v]) :=
  if_pos h

theorem pushInput_of_refuses {v : Word} (h : s.accepts [v] = false) : pushInput v s = (false, s) :=
  if_neg (ne_true_of_eq_false h)

/-! ### The cases of run -/

theorem hostRun_of_accepts (fuel : Nat) (h : s.accepts vs = true) :
    hostRun fuel vs s = runAccepted fuel (s.withInputs vs) :=
  if_pos h

theorem hostRun_of_refuses (fuel : Nat) (h : s.accepts vs = false) : hostRun fuel vs s = (.refused, s) :=
  if_neg (ne_true_of_eq_false h)

theorem runAccepted_halted (fuel : Nat) (hrun : s.run = .halted) : runAccepted fuel s = (.returned .halted, s) := by
  rw [runAccepted, hrun]

theorem runAccepted_faulted (fuel : Nat) (hrun : s.run = .faulted) :
    runAccepted fuel s = (.returned (.fault s.fault), s) := by
  rw [runAccepted, hrun]

/-- A live machine runs the loop, and returns what the loop returns. -/
theorem runAccepted_live (fuel : Nat) (hlive : s.live) :
    runAccepted fuel s = (((runLoop fuel s).1.elim .unfinished .returned), (runLoop fuel s).2) := by
  obtain ⟨hhalted, hfaulted⟩ := hlive
  unfold runAccepted
  split
  · exact absurd ‹_› hhalted
  · exact absurd ‹_› hfaulted
  all_goals split <;> simp [*]

/-- An accepted run is never refused afterwards. -/
theorem runAccepted_ne_refused (fuel : Nat) (s : State) : (runAccepted fuel s).1 ≠ .refused := by
  by_cases hhalted : s.run = .halted
  · simp [runAccepted_halted fuel hhalted]
  by_cases hfaulted : s.run = .faulted
  · simp [runAccepted_faulted fuel hfaulted]
  rw [runAccepted_live fuel ⟨hhalted, hfaulted⟩]
  cases (runLoop fuel s).1 <;> simp

theorem hostRun_eq_refused {fuel : Nat} : (hostRun fuel vs s).1 = .refused ↔ s.accepts vs = false := by
  cases h : s.accepts vs with
  | false => simp [hostRun_of_refuses fuel h]
  | true => simp [hostRun_of_accepts fuel h, runAccepted_ne_refused]

end

/-! ### The statements about the input operations and the queries -/

/-- Settles O48: a full queue has no room for one more value, and a legal queue that is not full has. -/
theorem pushInputRule : Obligations.PushInputRule := by
  refine fun v s hlegal => ⟨fun hbad => pushInput_of_refuses (State.accepts_eq_false.2 ?_), fun hfull hv =>
    pushInput_of_accepts (hlegal.accepts_word hfull hv)⟩
  rcases hbad with hfull | hv
  · exact .inl ⟨s.inQ.length, hfull, by simp⟩
  · exact .inr ⟨v, by simp, hv⟩

/-- Settles O49: `run` is refused exactly when its inputs are; else it is the run of the machine that holds them, by its run
state. -/
theorem runAppendsThenSteps : Obligations.RunAppendsThenSteps := by
  refine fun fuel inputs s => ⟨fun _ => hostRun_eq_refused.trans State.accepts_eq_false, hostRun_of_refuses fuel,
    fun haccepts => ?_⟩
  rw [hostRun_of_accepts fuel haccepts]
  refine ⟨fun hrun => runAccepted_halted fuel hrun, fun hrun => runAccepted_faulted fuel hrun, fun hlive t r hloop => ?_⟩
  change runLoop fuel (s.withInputs inputs) = (some r, t) at hloop
  rw [runAccepted_live fuel (s := s.withInputs inputs) hlive, hloop]
  rfl

/-- Settles O54: `peek_memory` reads a cell that exists, and neither query is more than a look. -/
theorem peekAndHaltedOnlyLook : Obligations.PeekAndHaltedOnlyLook := by
  refine fun a s => ⟨fun hsize => ?_, fun n hsize => ⟨fun hlt => ?_, fun hle => ?_⟩, decide_eq_true_iff, rfl, rfl⟩
  all_goals rw [peekMemory, addrOk_natCast, hsize]
  · rfl
  · exact if_pos (decide_eq_true (Nat.succ_le_of_lt hlt))
  · exact if_neg (by simpa [fits] using hle)

end Sys2Proof.Machine
end

section
/-! PROOFS. The loop of `run` (50_execution_and_host.md R176 to R178): it returns at the first step that does not continue. -/

namespace Sys2Proof.Machine

/-- The result of the step that ends a run with this result (R173, R177). -/
def RunResult.asStep : RunResult → StepResult
  | .halted => .halted
  | .ioWait => .ioWait
  | .fault r => .fault r

theorem RunResult.eq_asStep {r : RunResult} {x : StepResult} :
    x = r.asStep ↔ (r = .halted ∧ x = .halted) ∨ (r = .ioWait ∧ x = .ioWait) ∨ ∃ f, r = .fault f ∧ x = .fault f := by
  cases r <;> simp [RunResult.asStep]

section
variable {s t : State} {r : RunResult}

/-- The loop returns at the first step, or goes on from a step that continues. -/
theorem runLoop_succ_eq_some {fuel : Nat} :
    runLoop (fuel + 1) s = (some r, t) ↔
      (s.stepped.stepResult = r.asStep ∧ t = s.stepped) ∨
      (s.stepped.stepResult = .continued ∧ runLoop fuel s.stepped = (some r, t)) := by
  rw [runLoop]
  cases s.stepped.stepResult <;> cases r <;> simp [RunResult.asStep, eq_comm]

/-- The loop follows the steps that continue to the first that does not. -/
theorem runLoop_eq_some {fuel : Nat} :
    runLoop fuel s = (some r, t) ↔
      ∃ k < fuel, (∀ j < k, (State.stepped^[j] s).stepped.stepResult = .continued) ∧
        t = State.stepped^[k + 1] s ∧ t.stepResult = r.asStep := by
  induction fuel generalizing s with
  | zero => simp [runLoop]
  | succ fuel ih =>
    rw [runLoop_succ_eq_some, ih, Nat.exists_lt_succ_left]
    refine or_congr ?_ ?_
    · simp only [Nat.not_lt_zero, false_implies, implies_true, true_and, Function.iterate_one, zero_add]
      exact ⟨fun ⟨hr, ht⟩ => ⟨ht, ht ▸ hr⟩, fun ⟨ht, hr⟩ => ⟨ht ▸ hr, ht⟩⟩
    · simp only [Nat.forall_lt_succ_left, Function.iterate_succ_apply, Function.iterate_zero_apply, and_assoc]
      exact ⟨fun ⟨h0, k, hk, h⟩ => ⟨k, hk, h0, h⟩, fun ⟨k, hk, h0, h⟩ => ⟨h0, k, hk, h⟩⟩

/-- A loop that has returned returns the same with more fuel. -/
theorem runLoop_mono {m n : Nat} (hmn : m ≤ n) (h : runLoop m s = (some r, t)) : runLoop n s = (some r, t) := by
  obtain ⟨k, hk, hstop⟩ := runLoop_eq_some.1 h
  exact runLoop_eq_some.2 ⟨k, hk.trans_le hmn, hstop⟩

/-- The loop sees of its machine only what the first step leaves. -/
theorem runLoop_congr {s' : State} {fuel : Nat} (hstep : s'.stepped = s.stepped) (h : runLoop fuel s = (some r, t)) :
    runLoop fuel s' = (some r, t) := by
  cases fuel with
  | zero => cases h
  | succ fuel => rwa [runLoop, hstep, ← runLoop]

end

/-- Settles O50, by induction on the fuel (`runLoop_eq_some`). -/
theorem runReturnsAtTheFirstStop : Obligations.RunReturnsAtTheFirstStop := by
  intro fuel s t r
  simp only [runLoop_eq_some, RunResult.eq_asStep]

end Sys2Proof.Machine
end

section
/-! PROOFS. Suspension and resumption (50_execution_and_host.md R175, R185, R187): a step of a live machine looks neither at the
run state nor, unless it suspends, at more of the input queue than its head. So a waiting machine repeats its step, and inputs may
come before a suspension or after it. -/

namespace Sys2Proof.Machine

/-- The machine in run state `run`, with more inputs. -/
def State.resumed (run : RunState) (vs : List Word) (s : State) : State :=
  { s with run := run, inQ := s.inQ ++ vs }

section
variable {s t : State} {run : RunState} {vs : List Word}

@[simp] theorem State.resumed_inQ : (s.resumed run vs).inQ = s.inQ ++ vs := rfl

theorem State.resumed_ioWait_nil : s.resumed .ioWait [] = s.suspend := by
  rw [State.resumed, List.append_nil, State.suspend]

theorem State.withInputs_nil : s.withInputs [] = s := by
  rw [State.withInputs, List.append_nil]

/-! ### Every instruction but a suspending input does the same when resumed -/

/-- The end of a step sets the run state itself, so a resumed step that commits the same state with the inputs added ends as the
step did. -/
theorem finish_resumed {c c' : Checked State} (hc : c' = (State.withInputs · vs) <$> c) (h : finish s c = .next t) :
    finish (s.resumed run vs) c' = .next (t.withInputs vs) := by
  subst hc
  cases c <;> cases h <;> rfl

theorem writeResult_resumed {m1 m2 m3 : Mode} {f : Word → Word → Checked Word} (h : writeResult m1 m2 m3 f s = .next t) :
    writeResult m1 m2 m3 f (s.resumed run vs) = .next (t.withInputs vs) :=
  finish_resumed (by simp only [map_bind]; rfl) h

theorem jumpWhen_resumed {m1 m2 : Mode} {taken : Word → Bool} (h : jumpWhen m1 m2 taken s = .next t) :
    jumpWhen m1 m2 taken (s.resumed run vs) = .next (t.withInputs vs) :=
  finish_resumed (by simp only [map_bind, apply_ite]; rfl) h

theorem execOutput_resumed {m1 : Mode} (h : execOutput m1 s = .next t) :
    execOutput m1 (s.resumed run vs) = .next (t.withInputs vs) :=
  finish_resumed (by simp only [map_bind]; rfl) h

theorem execAdjustRelativeBase_resumed {m1 : Mode} (h : execAdjustRelativeBase m1 s = .next t) :
    execAdjustRelativeBase m1 (s.resumed run vs) = .next (t.withInputs vs) :=
  finish_resumed (by simp only [map_bind]; rfl) h

/-- An input that does not suspend takes the head of the queue, which inputs at the tail leave as it is. -/
theorem execInput_resumed {m1 : Mode} (h : execInput m1 s = .next t) (ht : t.run ≠ .ioWait) :
    execInput m1 (s.resumed run vs) = .next (t.withInputs vs) := by
  have hdest : resolveF1W m1 (s.resumed run vs) = resolveF1W m1 s := rfl
  unfold execInput at h ⊢
  rw [hdest, State.resumed_inQ]
  cases hd : resolveF1W m1 s with
  | error r => rw [hd] at h; cases h; rfl
  | ok d =>
    cases hq : s.inQ with
    | nil => rw [hd, hq] at h; cases h; exact absurd rfl ht
    | cons v q =>
      rw [hd, hq] at h
      exact finish_resumed (by simp only [map_bind]; rfl) h

theorem exec_resumed {i : Instr} (h : exec i s = .next t) (ht : t.run ≠ .ioWait) :
    exec i (s.resumed run vs) = .next (t.withInputs vs) := by
  cases i with
  | add | mul | lessThan | equals =>
    simp only [exec, execAdd, execMul, execLessThan, execEquals] at h ⊢
    exact writeResult_resumed h
  | jumpIfTrue | jumpIfFalse => exact jumpWhen_resumed h
  | input m1 => exact execInput_resumed h ht
  | output m1 => exact execOutput_resumed h
  | adjustRelativeBase m1 => exact execAdjustRelativeBase_resumed h
  | halt => cases h; rfl

/-! ### Every step but a suspension does the same when resumed -/

/-- A step that does not suspend does the same in every live run state and with any inputs added. -/
theorem step_resumed (hlive : s.live) (hrun : run ≠ .halted ∧ run ≠ .faulted) (h : step s = .next t) (ht : t.run ≠ .ioWait) :
    step (s.resumed run vs) = .next (t.withInputs vs) := by
  have hfetch : fetchDecode (s.resumed run vs) = fetchDecode s := rfl
  rw [step_live (s := s.resumed run vs) hrun, hfetch]
  rcases step_cases h with ⟨hterminal, -⟩ | ⟨-, ⟨r, hfault, rfl⟩ | ⟨i, hi, hexec⟩⟩
  · exact absurd hterminal (by simp [hlive])
  · rw [hfault]; rfl
  · rw [hi]; exact exec_resumed hexec ht

/-- Inputs added to a live machine do not change a step that does not suspend. -/
theorem stepped_withInputs (hlive : s.live) (h : s.stepped.run ≠ .ioWait) :
    (s.withInputs vs).stepped = s.stepped.withInputs vs :=
  stepped_of_step (step_resumed (run := s.run) hlive hlive (step_eq_stepped s) h)

/-- A step that suspends is that of an input without data (R29, R130). -/
theorem fetches_input_of_ioWait (hlive : s.live) (hwait : s.stepped.run = .ioWait) :
    ∃ m1, s.fetches (.input m1) ∧ s.paramFault 1 m1 = none ∧ s.inQ = [] := by
  simpa [hwait] using step_run_cases hlive (step_eq_stepped s)

/-- A live machine that waits makes the step it makes when it does not wait. -/
theorem stepped_suspend (hlive : s.live) : s.suspend.stepped = s.stepped := by
  have hwaiting : s.suspend.live := by simp [State.live]
  by_cases hwait : s.stepped.run = .ioWait
  · obtain ⟨m1, hi, hp, hq⟩ := fetches_input_of_ioWait hlive hwait
    rw [stepped_of_step (step_suspends hlive hi hp hq)]
    exact stepped_of_step (step_suspends hwaiting hi hp hq)
  · have hstep := step_resumed (run := .ioWait) (vs := []) hlive (by decide) (step_eq_stepped s) hwait
    rw [State.resumed_ioWait_nil, State.withInputs_nil] at hstep
    exact stepped_of_step hstep

/-! ### The loop of run over a suspension -/

theorem live_of_continued (h : t.stepResult = .continued) : t.live := by
  rcases State.stepResult_eq_continued.1 h with hrun | hrun <;> simp [State.live, hrun]

theorem stepped_of_ioWait (hlive : s.live) (hwait : s.stepped.run = .ioWait) : s.stepped = s.suspend :=
  ((step_effect hlive (step_eq_stepped s)).of_ioWait hwait).2

/-- Running on after a suspension is one run with the inputs at hand. -/
theorem runLoop_withInputs {k j : Nat} {u : State} {r : RunResult} (hlive : s.live)
    (hwait : runLoop k s = (some .ioWait, t)) (hrun : runLoop j (t.withInputs vs) = (some r, u)) :
    runLoop (k + j) (s.withInputs vs) = (some r, u) := by
  induction k generalizing s with
  | zero => cases hwait
  | succ k ih =>
    rcases runLoop_succ_eq_some.1 hwait with ⟨hresult, rfl⟩ | ⟨hcontinued, hrest⟩
    · rw [stepped_of_ioWait hlive (State.stepResult_eq_ioWait.1 hresult)] at hrun
      have hsame : (s.withInputs vs).suspend.stepped = (s.withInputs vs).stepped := stepped_suspend hlive
      exact runLoop_mono (Nat.le_add_left j (k + 1)) (runLoop_congr hsame.symm hrun)
    · have hnotWait : s.stepped.run ≠ .ioWait := by
        rcases State.stepResult_eq_continued.1 hcontinued with hr | hr <;> simp [hr]
      have hsame : (s.withInputs vs).stepped = s.stepped.withInputs vs := stepped_withInputs hlive hnotWait
      rw [Nat.add_right_comm, runLoop_succ_eq_some, hsame]
      exact .inr ⟨hcontinued, ih (live_of_continued hcontinued) hrest⟩

end

/-! ### The statements about suspension -/

/-- Settles O51: the waiting machine is the suspended one, which repeats the step that suspended it. -/
theorem waitingAgainChangesNothing : Obligations.WaitingAgainChangesNothing := by
  intro s t fuel h hwait
  have hlive : s.live := by
    rcases step_cases h with ⟨hterminal, rfl⟩ | ⟨hlive, -⟩
    · simp [hwait] at hterminal
    · exact hlive
  obtain ⟨hq, rfl⟩ := (step_effect hlive h).of_ioWait hwait
  have hagain : s.suspend.stepped = s.suspend := (stepped_suspend hlive).trans (stepped_of_step h)
  have haccepts : s.suspend.accepts [] = true := by simp [State.accepts, hq, fits_zero]
  have hloop : runLoop (fuel + 1) s.suspend = (some .ioWait, s.suspend) :=
    runLoop_succ_eq_some.2 (.inl ⟨by rw [hagain]; rfl, hagain.symm⟩)
  rw [hostRun_of_accepts _ haccepts, State.withInputs_nil, runAccepted_live _ (by simp [State.live]), hloop]
  rfl

/-- Settles O52, by induction on the steps before the suspension, each of which the later inputs leave as it is; the step that
suspends is made again when the machine resumes. -/
theorem inputsMayComeLate : Obligations.InputsMayComeLate :=
  fun _ _ _ _ _ _ _ => runLoop_withInputs

end Sys2Proof.Machine
end

section
/-! PROOFS. Which faults a step takes (60_exceptions.md R211, R213): those of fetch and decode, and, under the default parameters,
no other of an instruction than `NegativeAddress`. -/

namespace Sys2Proof.Machine

/-! ### The codes of the faults -/

theorem FaultKind.one_le_code (k : FaultKind) : 1 ≤ k.code := by
  cases k <;> decide

/-- The decode faults are codes 1 to 4 (R211). -/
theorem decodeRaise_code_le (w : Word) (f : DecodeFault) : (decodeRaise w f).kind.code ≤ 4 := by
  cases f <;> simp [decodeRaise, FaultKind.code]

/-! ### Checks that raise only `NegativeAddress` -/

/-- A check that raises nothing but `NegativeAddress`. -/
def NegativeAddressOnly (c : Option Raise) : Prop :=
  ∀ r, c = some r → r.kind = .negativeAddress

theorem NegativeAddressOnly.none : NegativeAddressOnly none :=
  fun _ h => by cases h

/-- The first fault of such checks is one of theirs. -/
theorem NegativeAddressOnly.first {cs : List (Option Raise)} (h : ∀ c ∈ cs, NegativeAddressOnly c) :
    NegativeAddressOnly (firstFault cs) :=
  fun r hr => h (some r) (firstFault_mem hr) r rfl

section
variable {s : State} (hdefault : s.params = Params.default)
include hdefault

theorem advanceFault_default (n : Nat) : s.advanceFault n = none :=
  wordFault_default hdefault none _

theorem outputFault_default (v : Word) : s.outputFault v = none := by
  simp [State.outputFault, hdefault, Params.default]

/-- `MEM_SIZE = ∞`: an address fails only by its sign (R211 codes 5 and 6). -/
theorem addrFault_negativeAddressOnly (i : Option Nat) (a : Word) : NegativeAddressOnly (s.addrFault i a) := by
  rcases lt_or_ge a 0 with hneg | hnonneg
  · rw [addrFault_negative hneg]
    rintro _ ⟨⟩
    rfl
  · rw [addrFault_default hdefault hnonneg]
    exact .none

theorem effFault_negativeAddressOnly (i : Nat) (m : Mode) : NegativeAddressOnly (s.effFault i m) := by
  by_cases hm : m = .immediate
  · subst hm
    exact .none
  · rw [effFault_default hdefault i hm]
    exact addrFault_negativeAddressOnly hdefault _ _

theorem paramFault_negativeAddressOnly (i : Nat) (m : Mode) : NegativeAddressOnly (s.paramFault i m) := by
  rw [State.paramFault, wordFault_default hdefault, firstFault_none]
  refine .first ?_
  simp [addrFault_negativeAddressOnly hdefault, effFault_negativeAddressOnly hdefault]

end

/-! ### The faults of an instruction under the default parameters -/

/-- An outcome of a step from `s` that takes no other fault than `NegativeAddress`. -/
def FaultsByNegativeAddress (s : State) (o : Host.Outcome State Fault Refusal) : Prop :=
  ∀ t, o = .next t → t.run = .faulted → ∃ r, t = s.takeFault r ∧ r.kind = .negativeAddress

/-- A completion or suspension is no fault, so such an outcome faults by its checks alone. -/
theorem faultsByNegativeAddress_settled {s t : State} {c : Option Raise} (hc : NegativeAddressOnly c)
    (ht : t.run ≠ .faulted) : FaultsByNegativeAddress s (settled s c t) := by
  intro u h hrun
  rcases settled_cases h with ⟨-, rfl⟩ | ⟨r, hr, rfl⟩
  · exact absurd hrun ht
  · exact ⟨r, rfl, hc r hr⟩

section
variable {s : State} (hdefault : s.params = Params.default)
include hdefault

theorem writeResult_faultsByNegativeAddress (m1 m2 : Mode) {m3 : Mode} (h3 : m3 ≠ .immediate)
    {f : Word → Word → Checked Word} {r : Word} (hf : f (s.operand 1 m1) (s.operand 2 m2) = .ok r) :
    FaultsByNegativeAddress s (writeResult m1 m2 m3 f s) := by
  rw [writeResult_eq m1 m2 h3 s f none r hf]
  refine faultsByNegativeAddress_settled (.first ?_) (by simp)
  simp [paramFault_negativeAddressOnly hdefault, advanceFault_default hdefault, NegativeAddressOnly.none]

theorem jumpWhen_faultsByNegativeAddress (m1 m2 : Mode) (taken : Word → Bool) :
    FaultsByNegativeAddress s (jumpWhen m1 m2 taken s) := by
  rw [jumpWhen_eq]
  split
  all_goals
    refine faultsByNegativeAddress_settled (.first ?_) (by simp)
    simp [paramFault_negativeAddressOnly hdefault, advanceFault_default hdefault, NegativeAddressOnly.none]

theorem execInput_faultsByNegativeAddress {m1 : Mode} (h1 : m1 ≠ .immediate) :
    FaultsByNegativeAddress s (execInput m1 s) := by
  rw [execInput_eq h1, advanceFault_default hdefault]
  refine faultsByNegativeAddress_settled (paramFault_negativeAddressOnly hdefault 1 m1) ?_
  cases s.inQ <;> simp

theorem execOutput_faultsByNegativeAddress (m1 : Mode) : FaultsByNegativeAddress s (execOutput m1 s) := by
  rw [execOutput_eq, outputFault_default hdefault, advanceFault_default hdefault]
  refine faultsByNegativeAddress_settled (.first ?_) (by simp)
  simp [paramFault_negativeAddressOnly hdefault, NegativeAddressOnly.none]

theorem execAdjustRelativeBase_faultsByNegativeAddress (m1 : Mode) :
    FaultsByNegativeAddress s (execAdjustRelativeBase m1 s) := by
  rw [execAdjustRelativeBase_eq, wordFault_default hdefault, advanceFault_default hdefault]
  refine faultsByNegativeAddress_settled (.first ?_) (by simp)
  simp [paramFault_negativeAddressOnly hdefault, NegativeAddressOnly.none]

theorem checkWord_default (i : Option Nat) (v : Word) : checkWord s.params i v = .ok v := by
  rw [checkWord_eq, wordFault_default hdefault, checked_none]

/-- Under the default parameters an instruction that some word decodes to (R88) takes no other fault than `NegativeAddress`. -/
theorem exec_faultsByNegativeAddress {i : Instr} (hwf : i.wellFormed = true) : FaultsByNegativeAddress s (exec i s) := by
  have hwrite : ∀ m, i.writeMode = some m → m ≠ .immediate := by
    rintro m hm rfl
    simp [Instr.wellFormed, hm] at hwf
  cases i with
  | add m1 m2 m3 | mul m1 m2 m3 =>
    simp only [exec, execAdd, execMul]
    exact writeResult_faultsByNegativeAddress hdefault m1 m2 (hwrite m3 rfl) (checkWord_default hdefault none _)
  | lessThan m1 m2 m3 | equals m1 m2 m3 =>
    simp only [exec, execLessThan, execEquals]
    exact writeResult_faultsByNegativeAddress hdefault m1 m2 (hwrite m3 rfl) rfl
  | jumpIfTrue m1 m2 => exact jumpWhen_faultsByNegativeAddress hdefault m1 m2 isNonzero
  | jumpIfFalse m1 m2 => exact jumpWhen_faultsByNegativeAddress hdefault m1 m2 isZero
  | input m1 => exact execInput_faultsByNegativeAddress hdefault (hwrite m1 rfl)
  | output m1 => exact execOutput_faultsByNegativeAddress hdefault m1
  | adjustRelativeBase m1 => exact execAdjustRelativeBase_faultsByNegativeAddress hdefault m1
  | halt => exact faultsByNegativeAddress_settled (t := s.halt) .none (by simp)

/-! ### The faults of a step under the default parameters -/

/-- Fetch fails only by a negative `ptr`, and decode by its own faults. -/
theorem fetchDecode_error_code_le {r : Raise} (h : fetchDecode s = .error r) : r.kind.code ≤ 5 := by
  cases haddr : s.addrFault none s.ptr with
  | some r' =>
    rw [fetchDecode, fetchWord_eq, haddr] at h
    cases h
    rw [addrFault_negativeAddressOnly hdefault none s.ptr r haddr]
    decide
  | none =>
    rw [fetchDecode_of_addrOk (addrFault_eq_none.1 haddr), decodeFetched] at h
    cases hdecode : decode s.params.extraDigits (s.mem.read s.ptr.toNat) with
    | ok i => rw [hdecode] at h; cases h
    | error f =>
      rw [hdecode] at h
      cases h
      exact (decodeRaise_code_le _ f).trans (by decide)

/-- A step that faults raises one of the codes up to `NegativeAddress`. -/
theorem step_fault_code_le {t : State} (hlive : s.live) (h : step s = .next t) (hrun : t.run = .faulted) :
    ∃ r, t = s.takeFault r ∧ r.kind.code ≤ 5 := by
  rcases step_cases h with ⟨hterminal, -⟩ | ⟨-, ⟨r, hfetch, rfl⟩ | ⟨i, hfetch, hexec⟩⟩
  · exact absurd hterminal (by simp [hlive])
  · exact ⟨r, rfl, fetchDecode_error_code_le hdefault hfetch⟩
  · obtain ⟨-, hdecode⟩ := fetchDecode_eq_ok.1 hfetch
    obtain ⟨r, rfl, hkind⟩ := exec_faultsByNegativeAddress hdefault (decode_wellFormed hdecode) t hexec hrun
    exact ⟨r, rfl, by rw [hkind]; decide⟩

end

/-! ### The statements about the faults of a step -/

/-- Settles O12: the fault is the decode fault's, taken at `ptr` with the word that was fetched there. -/
theorem decodeFaultIsRecorded : Obligations.DecodeFaultIsRecorded := by
  rintro s _ hlive haddr rfl
  have hstep : ∀ f, decode s.params.extraDigits (s.mem.read s.ptr.toNat) = .error f →
      step s = .next (s.takeFault (decodeRaise (s.mem.read s.ptr.toNat) f)) :=
    fun _ => step_of_decode_error hlive haddr
  simp only [State.takeFault, State.currentWord_of_addrOk haddr] at hstep
  exact ⟨hstep .unknownOpcode, fun i d => hstep (.invalidMode i d), hstep .extraDigits,
    fun j => hstep (.invalidWriteTarget j)⟩

/-- Settles O22: fetch raises only `NegativeAddress`, decode codes 1 to 4, and a decoded instruction only `NegativeAddress`. -/
theorem defaultParametersRaiseCodesOneToFive : Obligations.DefaultParametersRaiseCodesOneToFive := by
  intro s t hdefault hlive h hrun
  obtain ⟨r, rfl, hcode⟩ := step_fault_code_le hdefault hlive h hrun
  exact ⟨_, State.takeFault_fault s r, r.kind.one_le_code, hcode⟩

end Sys2Proof.Machine
end

section
/-! PROOFS. A fault lasts until reset (60_exceptions.md R216): the other operations of the host change no more of a faulted
machine than its queues. -/

namespace Sys2Proof.Machine

section
variable {s : State} (hrun : s.run = .faulted)
include hrun

theorem stepped_faulted : s.stepped = s :=
  stepped_of_step (step_faulted hrun)

theorem hostRun_faulted (fuel : Nat) {inputs : List Word} (h : s.accepts inputs = true) :
    hostRun fuel inputs s = (.returned (.fault s.fault), s.withInputs inputs) := by
  rw [hostRun_of_accepts fuel h]
  exact runAccepted_faulted fuel (s := s.withInputs inputs) hrun

/-- The operations of the host but reset change only the queues of a faulted machine. -/
theorem hostCall_faulted {c : HostCall} (hc : c ≠ .reset) :
    ∃ inQ outQ, (hostCall c s).2 = { s with inQ := inQ, outQ := outQ } := by
  cases c with
  | step => exact ⟨s.inQ, s.outQ, stepped_faulted hrun⟩
  | run fuel inputs =>
    cases h : s.accepts inputs with
    | true => exact ⟨s.inQ ++ inputs, s.outQ, congrArg Prod.snd (hostRun_faulted hrun fuel h)⟩
    | false => exact ⟨s.inQ, s.outQ, congrArg Prod.snd (hostRun_of_refuses fuel h)⟩
  | pushInput v =>
    rcases pushInput_cases v s with h | h
    · exact ⟨s.inQ ++ [v], s.outQ, congrArg Prod.snd h⟩
    · exact ⟨s.inQ, s.outQ, congrArg Prod.snd h⟩
  | popOutput =>
    cases hq : s.outQ with
    | nil => exact ⟨s.inQ, s.outQ, congrArg Prod.snd (popOutput_nil hq)⟩
    | cons v q => exact ⟨s.inQ, q, congrArg Prod.snd (popOutput_cons hq)⟩
  | peekMemory a => exact ⟨s.inQ, s.outQ, rfl⟩
  | halted => exact ⟨s.inQ, s.outQ, rfl⟩
  | reset => exact absurd rfl hc
  | fork => exact ⟨s.inQ, s.outQ, rfl⟩

end

/-- Settles O53: only the queues change before a reset, a terminal machine answers with its record, and reset loads the image
anew. -/
theorem faultLastsUntilReset : Obligations.FaultLastsUntilReset := by
  intro s hrun
  refine ⟨fun c hc => ?_, ?_, fun fuel inputs h => ?_, rfl, rfl, rfl⟩
  · obtain ⟨inQ, outQ, hcall⟩ := hostCall_faulted hrun hc
    rw [hcall]
    exact ⟨hrun, rfl, rfl, rfl, rfl⟩
  · rw [hostCall, ((terminalStepChangesNothing s).2 hrun).2]
  · rw [hostCall, hostRun_faulted hrun fuel h]

end Sys2Proof.Machine
end

section
/-! PROOFS. Load, reset and fork (70_reset_and_hazards.md R241 to R244): what `load` refuses, the first step of a machine without
a program, what every host operation keeps of the machine that `reset` brings back, and the fork, which is the state itself. -/

namespace Sys2Proof.Machine

/-! ### Load and the empty program -/

section
variable {p : Params}

/-- Words are refused only for want of cells (R241). -/
theorem load_eq_none {P : List Word} (hwords : wordsLegal p P) : load p P = none ↔ fits p.memSize P.length = false := by
  have hall : P.all (wordOk p) = true := List.all_eq_true.2 hwords
  simp [load, hall]

theorem load_empty (p : Params) : load p [] = some (State.loaded p []) :=
  load_eq_some.2 ⟨⟨fits_zero p.memSize, List.forall_mem_nil _⟩, rfl⟩

/-- A memory of at least one cell has the cell 0 (R5). -/
theorem addrOk_zero (hp : paramsAllowed p) : addrOk p 0 = true :=
  (addrOk_natCast p 0).trans (fits_succ (fits_zero p.memSize) hp)

theorem decode_zero (x : ExtraDigits) : decode x 0 = .error .unknownOpcode :=
  (unknownOpcodeWords x 0).2 (.inr (by decide))

theorem step_loaded_empty (hp : paramsAllowed p) :
    step (State.loaded p []) =
      .next { State.loaded p [] with run := .faulted, fault := some ⟨.unknownOpcode, 0, some 0, none, 0⟩ } :=
  (decodeFaultIsRecorded (State.loaded p []) 0 ⟨nofun, nofun⟩ (addrOk_zero hp) rfl).1 (decode_zero p.extraDigits)

end

/-! ### Reset after host operations -/

theorem hostReset_of_load {p : Params} {P : List Word} {s : State} (h : load p P = some s) : s.hostReset = s := by
  obtain ⟨-, rfl⟩ := load_eq_some.1 h
  rfl

theorem hostReset_hostCall (c : HostCall) (s : State) : (hostCall c s).2.hostReset = s.hostReset := by
  obtain ⟨himage, hparams⟩ := imageIsNeverWritten c s
  rw [State.hostReset, himage, hparams, State.hostReset]

theorem hostReset_hostCalls (calls : List HostCall) (s : State) : (hostCalls calls s).hostReset = s.hostReset :=
  hostCalls_keep (Q := fun u => u.hostReset = s.hostReset) (fun c u hu => (hostReset_hostCall c u).trans hu) calls rfl

/-! ### The statements about load, reset and fork -/

/-- Settles O2: words are refused for want of cells only; and the empty program's cells are all 0, the first of which is fetched
and is no instruction. -/
theorem loadAcceptsWhatFits : Obligations.LoadAcceptsWhatFits :=
  ⟨fun _ _ hwords => (load_eq_none hwords).trans fits_eq_false,
    fun p hp => ⟨State.loaded p [], load_empty p, fun _ => rfl, step_loaded_empty hp⟩⟩

/-- Settles O4: reset is a function of the image and the parameters, which no host operation changes, and a loaded machine is its
own reset. -/
theorem resetRestoresTheLoadedMachine : Obligations.ResetRestoresTheLoadedMachine :=
  fun _ _ s₀ calls hload => (hostReset_hostCalls calls s₀).trans (hostReset_of_load hload)

/-- Settles O55: the copy is the state itself, on which the same host operations are the same. -/
theorem forkIsAFullCopy : Obligations.ForkIsAFullCopy :=
  fun s => ⟨s, rfl, fun _ => ⟨rfl, rfl⟩⟩

end Sys2Proof.Machine
end
